-- ==== Sys2Proof/Word.lean ====
section
/-! DEFINITION. The widths of the UART framing codec (R7, R8): every value of the block is an
unsigned bit vector of a stated width, bit 0 the least significant. Only names of widths stand here. -/

namespace Sys2Proof

/-- A byte: 8 bits, unsigned (R8). -/
abbrev Byte := BitVec 8

/-- A 16-bit value: length and checksum fields, accumulators, STATUS (R5, R7). -/
abbrev Half := BitVec 16

/-- A 32-bit frame address (R5, ADDR_W). -/
abbrev Addr := BitVec 32

/-- A command word on the command port: 96 bits (R7, R70). -/
abbrev CmdWord := BitVec 96

/-- A receive event word on the event port: 64 bits (R7, R88). -/
abbrev EventWord := BitVec 64

end Sys2Proof
end

