-- ==== Sys2Proof/Config.lean ====
section
/-! DEFINITION. The implementation parameters: the fixed values of R5 and the address limit of R6.
The spec leaves no value of this block undefined (93_implementation_defined.md), so there is no free value. -/

namespace Sys2Proof.Config

/-- SYNC0, the first byte of every frame (R5). -/
def sync0 : Byte := 0xAA#8

/-- SYNC1, the second byte of every frame (R5). -/
def sync1 : Byte := 0x55#8

/-- CMD_WRITE, the command byte of a WRITE frame (R5). -/
def cmdWrite : Byte := 0x57#8

/-- CMD_READ, the command byte of a READ frame (R5). -/
def cmdRead : Byte := 0x52#8

/-- HDR_BYTES: the bytes before the payload (R5). -/
def hdrBytes : Nat := 9

/-- TRL_BYTES: the bytes after the payload (R5). -/
def trlBytes : Nat := 2

/-- TAG_ACK, a reply tag that the block gives no meaning (R5, R86). -/
def tagAck : Byte := 0x41#8

/-- TAG_DATA, a reply tag that the block gives no meaning (R5, R86). -/
def tagData : Byte := 0x44#8

/-- The default of the parameter ADDR_LIMIT, its value for this hardware (R6). The machine compares with the parameter,
`State.addrLimit`, and nowhere with this value. -/
def addrLimit : Addr := 0x0000FFFF#32

end Sys2Proof.Config
end

