-- ==== Sys2Proof/Syntax.lean ====
section
/-! DEFINITION. The instructions of spec/opcode_table.json, one constructor per row, with the operand
fields that R73 marks as read; and what a host thread can do (R90, R91). -/

namespace Sys2Proof

/-- The frame command a TX_BUILD selects with CSEL (R71): 0 = WRITE, 1 = READ. There is no third (R82). -/
inductive FrameCmd where
  | write
  | read
  deriving DecidableEq, Repr

/-- One constructor per row of the opcode table (R74). The operands are the fields the op reads (R73);
RSV and the ignored fields have no effect (R75) and are not kept. -/
inductive Instr where
  /-- OP 0x0 (R180). -/
  | nop
  /-- OP 0x1 (R104). -/
  | ckClear
  /-- OP 0x2 (R105): DATA. -/
  | ckAdd (data : Byte)
  /-- OP 0x3 (R123): ADDR and LEN. -/
  | txWrite (addr : Addr) (len : Half)
  /-- OP 0x4 (R124): ADDR and LEN. -/
  | txRead (addr : Addr) (len : Half)
  /-- OP 0x5 (R125): CSEL, ADDR, LEN, PCNT and CKV. -/
  | txBuild (csel : FrameCmd) (addr : Addr) (len pcnt ckv : Half)
  /-- OP 0x6 (R163). -/
  | rxReset
  /-- OP 0x7 (R181). -/
  | clrStatus
  /-- OP 0x8 to 0xF (R182): the op value itself, which IllegalOp names. -/
  | reserved (op : BitVec 4)
  deriving DecidableEq, Repr

/-- One action of a host thread, one port transfer each (R4, R24, R90). -/
inductive HostAction where
  /-- Issue a command word on the command port (R25). -/
  | issue (w : CmdWord)
  /-- `PUT b`: offer a byte on the payload port (R128). -/
  | put (b : Byte)
  /-- `RDSTAT`: read STATUS (R30). -/
  | rdStat
  /-- `RDACC`: read the CK_ACC port (R31). -/
  | rdAcc
  /-- `TAKEEV`: take the event word at the head of EVLOG (R33). -/
  | takeEv
  deriving DecidableEq, Repr

/-- A line of the assembler syntax, as abstract syntax (R90), pseudo-instructions included (R91). -/
inductive AsmLine where
  /-- An op mnemonic with its operands. -/
  | op (i : Instr)
  /-- `.word`: any command word. -/
  | word (w : CmdWord)
  | put (b : Byte)
  | rdstat
  | rdacc
  | takeev
  /-- `SEND addr, [b0, ...]`, the source's `write_command`. -/
  | send (addr : Addr) (payload : List Byte)
  /-- `SUM [b0, ...]`, the source's `checksum`. -/
  | sum (payload : List Byte)
  /-- `RAW W|R, addr, len, [b0, ...], ckv`, the source's `build_frame`. -/
  | raw (csel : FrameCmd) (addr : Addr) (len : Half) (payload : List Byte) (ckv : Half)
  /-- `REQ addr, len`, the source's `read_command`. -/
  | req (addr : Addr) (len : Half)
  deriving DecidableEq, Repr

end Sys2Proof
end

