-- ==== Sys2Proof/WellFormed.lean ====
section
/-! DEFINITION. Which terms of Instr are instructions: the operand widths are in the types, so the one
thing left to check is that a reserved op carries a reserved op value (R75). -/

namespace Sys2Proof

/-- The op value of a reserved instruction is 0x8 to 0xF (R75); every other term is an instruction. -/
def Instr.wellFormed : Instr → Bool
  | .nop => true
  | .ckClear => true
  | .ckAdd _ => true
  | .txWrite _ _ => true
  | .txRead _ _ => true
  | .txBuild _ _ _ _ _ => true
  | .rxReset => true
  | .clrStatus => true
  | .reserved op => decide (8#4 ≤ op)

end Sys2Proof
end

