-- ==== Sys2Proof/Decode.lean ====
section
/-! DEFINITION. The command word (R70 to R76, R92): its fields, the decoder and the encoder. A command
word crosses the command port whole, so it has no byte order (R52) and the decoder takes the word. -/

namespace Sys2Proof

/-- OP = w[3:0] (R71). -/
def opField (w : CmdWord) : BitVec 4 := w.extractLsb' 0 4

/-- CSEL = w[4] (R71). -/
def cselField (w : CmdWord) : BitVec 1 := w.extractLsb' 4 1

/-- RSV = w[7:5] (R71), which no op reads. -/
def rsvField (w : CmdWord) : BitVec 3 := w.extractLsb' 5 3

/-- DATA = w[15:8] (R71). -/
def dataField (w : CmdWord) : Byte := w.extractLsb' 8 8

/-- ADDR = w[47:16] (R71). -/
def addrField (w : CmdWord) : Addr := w.extractLsb' 16 32

/-- LEN = w[63:48] (R71). -/
def lenField (w : CmdWord) : Half := w.extractLsb' 48 16

/-- PCNT = w[79:64] (R71). -/
def pcntField (w : CmdWord) : Half := w.extractLsb' 64 16

/-- CKV = w[95:80] (R71). -/
def ckvField (w : CmdWord) : Half := w.extractLsb' 80 16

/-- CSEL as a frame command: 0 = WRITE, 1 = READ (R71). -/
def FrameCmd.ofBit (b : BitVec 1) : FrameCmd := if b = 0#1 then .write else .read

/-- The CSEL bit of a frame command (R71). -/
def FrameCmd.toBit : FrameCmd → BitVec 1
  | .write => 0#1
  | .read => 1#1

/-- The command byte of a frame command: 0x57 or 0x52 (R82, R125). -/
def FrameCmd.byte : FrameCmd → Byte
  | .write => Config.cmdWrite
  | .read => Config.cmdRead

/-- Decoding selects the op by OP alone, never fails and depends on no state (R74, R92). -/
def decode (w : CmdWord) : Instr :=
  match opField w with
  | 0x0#4 => .nop
  | 0x1#4 => .ckClear
  | 0x2#4 => .ckAdd (dataField w)
  | 0x3#4 => .txWrite (addrField w) (lenField w)
  | 0x4#4 => .txRead (addrField w) (lenField w)
  | 0x5#4 => .txBuild (.ofBit (cselField w)) (addrField w) (lenField w) (pcntField w) (ckvField w)
  | 0x6#4 => .rxReset
  | 0x7#4 => .clrStatus
  | op => .reserved op

/-- Why a bit string is no command word: the one name the decoder rejects by. -/
inductive DecodeReject where
  /-- The string is longer than the 96 bits of the command port (R7, R70). -/
  | widerThanCommandPort (nbits : Nat)
  deriving DecidableEq, Repr

/-- The command word whose low `nbits` bits are those of `w` and whose other bits are 0. -/
def tableWord (nbits w : Nat) : CmdWord := BitVec.ofNat 96 (w % 2 ^ nbits)

/-- Decode a string of `nbits` bits, the bits above them 0; a string wider than the port is rejected. -/
def decodeBits (nbits w : Nat) : Except DecodeReject Instr :=
  if nbits ≤ 96 then .ok (decode (tableWord nbits w)) else .error (.widerThanCommandPort nbits)

/-- The instruction read from a word numbered as spec/opcode_table.json numbers it, bit 0 first. -/
def decodeTableWord (nbits w : Nat) : Option Instr := (decodeBits nbits w).toOption

/-- The op value of an instruction (R74). -/
def Instr.opcode : Instr → BitVec 4
  | .nop => 0x0#4
  | .ckClear => 0x1#4
  | .ckAdd _ => 0x2#4
  | .txWrite _ _ => 0x3#4
  | .txRead _ _ => 0x4#4
  | .txBuild _ _ _ _ _ => 0x5#4
  | .rxReset => 0x6#4
  | .clrStatus => 0x7#4
  | .reserved op => op

/-- The command word of given fields, laid out as R71 says, from the most significant group down. -/
def packWord (ckv pcnt len : Half) (addr : Addr) (data : Byte) (rsv : BitVec 3) (csel : BitVec 1)
    (op : BitVec 4) : CmdWord :=
  ckv ++ pcnt ++ len ++ addr ++ data ++ rsv ++ csel ++ op

/-- The assembled word: the fields the op reads hold its operands, every other field is 0 (R90). -/
def encode (i : Instr) : CmdWord :=
  match i with
  | .nop => packWord 0 0 0 0 0 0 0 i.opcode
  | .ckClear => packWord 0 0 0 0 0 0 0 i.opcode
  | .ckAdd data => packWord 0 0 0 0 data 0 0 i.opcode
  | .txWrite addr len => packWord 0 0 len addr 0 0 0 i.opcode
  | .txRead addr len => packWord 0 0 len addr 0 0 0 i.opcode
  | .txBuild csel addr len pcnt ckv => packWord ckv pcnt len addr 0 0 csel.toBit i.opcode
  | .rxReset => packWord 0 0 0 0 0 0 0 i.opcode
  | .clrStatus => packWord 0 0 0 0 0 0 0 i.opcode
  | .reserved _ => packWord 0 0 0 0 0 0 0 i.opcode

/-- The bits of a command word that an op value lets the block read: R73's table, a row per op. -/
def readMask (op : BitVec 4) : CmdWord :=
  match op with
  | 0x2#4 => packWord 0 0 0 0 (.allOnes 8) 0 0 (.allOnes 4)
  | 0x3#4 => packWord 0 0 (.allOnes 16) (.allOnes 32) 0 0 0 (.allOnes 4)
  | 0x4#4 => packWord 0 0 (.allOnes 16) (.allOnes 32) 0 0 0 (.allOnes 4)
  | 0x5#4 => packWord (.allOnes 16) (.allOnes 16) (.allOnes 16) (.allOnes 32) 0 0 (.allOnes 1) (.allOnes 4)
  | _ => packWord 0 0 0 0 0 0 0 (.allOnes 4)

end Sys2Proof
end

