-- ==== Sys2Proof/Machine/State.lean ====
section
/-! DEFINITION. The state of the codec: every row of R20, grouped by the unit that owns it, and the state of
the agents outside the block that R4 describes (host threads and the order of steps), as plain data. -/

namespace Sys2Proof.Machine

/-- The serializer's thirteen phases (R120), held in TXPH. -/
inductive TxPhase where
  | idle | s0 | s1 | cmd | a0 | a1 | a2 | a3 | l0 | l1 | pay | k0 | k1
  deriving DecidableEq, Repr

/-- The deframer's twelve phases (R150), held in RXPH. HUNT0 and HUNT1 are the hunt. -/
inductive RxPhase where
  | hunt0 | hunt1 | cmd | a0 | a1 | a2 | a3 | l0 | l1 | pay | k0 | k1
  deriving DecidableEq, Repr

/-- TXCKM, one bit: 0 = ACC, the checksum field is TXACC; 1 = FIX, it is TXCKV (R20). -/
inductive CkMode where
  | acc | fix
  deriving DecidableEq, Repr

/-- The serializer's registers, R20's rows TXPH to PBV. -/
@[ext]
structure Tx where
  /-- TXPH -/
  ph : TxPhase
  /-- TXCMD -/
  cmd : Byte
  /-- TXADDR -/
  addr : Addr
  /-- TXLEN -/
  len : Half
  /-- TXPCNT -/
  pcnt : Half
  /-- TXIDX -/
  idx : Half
  /-- TXCKM -/
  ckm : CkMode
  /-- TXCKV -/
  ckv : Half
  /-- TXACC -/
  acc : Half
  /-- PBUF -/
  pbuf : Byte
  /-- PBV: PBUF holds a byte not yet sent -/
  pbv : Bool
  deriving DecidableEq, Repr

/-- The deframer's registers, R20's rows RXPH to RXCKL. -/
@[ext]
structure Rx where
  /-- RXPH -/
  ph : RxPhase
  /-- RXCMD -/
  cmd : Byte
  /-- RXADDR -/
  addr : Addr
  /-- RXLEN -/
  len : Half
  /-- RXPCNT -/
  pcnt : Half
  /-- RXIDX -/
  idx : Half
  /-- RXACC -/
  acc : Half
  /-- RXCKL -/
  ckl : Byte
  deriving DecidableEq, Repr

/-- The four sticky bits, R20's rows E_ADDR to E_RXCMD. -/
@[ext]
structure Sticky where
  /-- E_ADDR -/
  eAddr : Bool
  /-- E_ILLOP -/
  eIllop : Bool
  /-- E_RXCK -/
  eRxck : Bool
  /-- E_RXCMD -/
  eRxcmd : Bool
  deriving DecidableEq, Repr

/-- A value that a read of a port returned to a host thread. -/
inductive Reading where
  /-- What a STATUS read returned (R30). -/
  | status (v : Half)
  /-- What a CK_ACC read returned (R31). -/
  | ckAcc (v : Half)
  /-- The event word that a take returned (R33). -/
  | event (w : EventWord)
  deriving DecidableEq, Repr

/-- A host thread (R4): the actions it has still to take, in program order, and what its reads have
returned so far. The MODEL's own fields (DESIGN CHOICE, notes/assumptions/1.md and 3.md). -/
@[ext]
structure HostThread where
  prog : List HostAction
  reads : List Reading
  deriving DecidableEq, Repr

/-- Whose step comes next (R4, R11): one host thread, the TX line, the RX line with the byte it delivers, or the
reset input (R24 (8)), which no agent drives. -/
inductive Turn where
  | host (thread : Nat)
  | txLine
  | rxLine (b : Byte)
  | resetInput
  deriving DecidableEq, Repr

/-- The machine. The first six fields are R20's rows; `threads` and `sched` are the MODEL's own: the host
threads and the order of the agents' steps, which the spec leaves free (R11, I12), so any list may stand there.
`addrLimit` is the parameter ADDR_LIMIT (R6), which every step takes with the state and none writes
(notes/assumptions/6.md). -/
@[ext]
structure State where
  /-- HACC, the host checksum accumulator -/
  hacc : Half
  /-- TXPH to PBV -/
  tx : Tx
  /-- RXPH to RXCKL -/
  rx : Rx
  /-- E_ADDR, E_ILLOP, E_RXCK, E_RXCMD -/
  err : Sticky
  /-- EVLOG, the head first -/
  evlog : List EventWord
  /-- TXLOG, the earliest byte first -/
  txlog : List Byte
  /-- the host threads of R4 -/
  threads : List HostThread
  /-- the steps still to be taken, the next first -/
  sched : List Turn
  /-- ADDR_LIMIT, the parameter of R6: no state of the block, and any value may stand there -/
  addrLimit : Addr
  deriving DecidableEq, Repr

/-- Why a step stops with a fault. There is no such reason: no rule of the spec stops the block, an error sets
a sticky bit and the rule that raised it carries on (R201, R207). -/
inductive Fault : Type
  deriving DecidableEq, Repr

/-- Why an instruction is refused. -/
inductive Refusal where
  /-- An instruction without a meaning in `exec`. Nothing raises it now: every row has its meaning. Safe. -/
  | notModelled (mnemonic : String)
  deriving DecidableEq, Repr

/-- The serializer after reset (R20). -/
def Tx.reset : Tx where
  ph := .idle
  cmd := 0x00#8
  addr := 0x00000000#32
  len := 0x0000#16
  pcnt := 0x0000#16
  idx := 0x0000#16
  ckm := .acc
  ckv := 0x0000#16
  acc := 0x0000#16
  pbuf := 0x00#8
  pbv := false

/-- The deframer after reset (R20). -/
def Rx.reset : Rx where
  ph := .hunt0
  cmd := 0x00#8
  addr := 0x00000000#32
  len := 0x0000#16
  pcnt := 0x0000#16
  idx := 0x0000#16
  acc := 0x0000#16
  ckl := 0x00#8

/-- No sticky bit set: after reset (R20) and after CLR_STATUS (R181). -/
def Sticky.clear : Sticky where
  eAddr := false
  eIllop := false
  eRxck := false
  eRxcmd := false

/-- The machine with the given ADDR_LIMIT, 0xFFFF where none is given (R6), right after the reset that comes before
every first step (R230): R20's reset column. No host thread has a program and no step is due: a program is brought
from outside (notes/assumptions/5.md). -/
def State.resetWith (addrLimit : Addr := Config.addrLimit) : State where
  hacc := 0x0000#16
  tx := Tx.reset
  rx := Rx.reset
  err := Sticky.clear
  evlog := []
  txlog := []
  threads := []
  sched := []
  addrLimit := addrLimit

/-- This hardware after reset: ADDR_LIMIT has its default, 0xFFFF (R6). -/
def State.reset : State := State.resetWith

/-! Updates of one field, the only ones the operations of the machine use. -/

/-- HACC <- v -/
def State.withHacc (s : State) (v : Half) : State := { s with hacc := v }
/-- Write the serializer's registers. -/
def State.withTx (s : State) (v : Tx) : State := { s with tx := v }
/-- Write the deframer's registers. -/
def State.withRx (s : State) (v : Rx) : State := { s with rx := v }
/-- Write the sticky bits. -/
def State.withErr (s : State) (v : Sticky) : State := { s with err := v }
/-- EVLOG <- v -/
def State.withEvlog (s : State) (v : List EventWord) : State := { s with evlog := v }
/-- TXLOG <- v -/
def State.withTxlog (s : State) (v : List Byte) : State := { s with txlog := v }
/-- Write the host threads. -/
def State.withThreads (s : State) (v : List HostThread) : State := { s with threads := v }
/-- Write the steps still due. -/
def State.withSched (s : State) (v : List Turn) : State := { s with sched := v }

end Sys2Proof.Machine
end

