-- ==== Sys2Proof/Machine/Operands.lean ====
section
/-! DEFINITION. Byte order (R9, R52), the checksum primitive and function (R100, R101), the frame
function (R80) and the event word (R88). -/

namespace Sys2Proof.Machine

/-- `le16(v)`: low byte first (R9). -/
def le16 (v : Half) : List Byte := [v.extractLsb' 0 8, v.extractLsb' 8 8]

/-- `le32(v)`: low byte first (R9). -/
def le32 (v : Addr) : List Byte :=
  [v.extractLsb' 0 8, v.extractLsb' 8 8, v.extractLsb' 16 8, v.extractLsb' 24 8]

/-- `zext_16(b)` (R8). -/
def zext16 (b : Byte) : Half := b.setWidth 16

/-- `zext_32(b)` (R8). -/
def zext32 (b : Byte) : Addr := b.setWidth 32

/-- `AccAdd(acc, b)`: add one byte modulo 65536, the carry discarded (R100). -/
def accAdd (acc : Half) (b : Byte) : Half := acc + zext16 b

/-- `sum(p)`: the ordinary sum of the bytes as natural numbers (R9). -/
def byteSum (p : List Byte) : Nat := (p.map BitVec.toNat).sum

/-- `checksum(p) = sum(p) mod 65536` (R101). -/
def checksum (p : List Byte) : Half := BitVec.ofNat 16 (byteSum p)

/-- `Frame(c, a, l, p, k)`: the bytes of a frame in wire order (R80). -/
def frame (c : Byte) (a : Addr) (l : Half) (p : List Byte) (k : Half) : List Byte :=
  [Config.sync0, Config.sync1, c] ++ le32 a ++ le16 l ++ p ++ le16 k

/-- A receive event (R88): one constructor per KIND. -/
inductive Event where
  /-- KIND 0x0, HDR: command byte, address, length field. -/
  | hdr (cmd : Byte) (addr : Addr) (len : Half)
  /-- KIND 0x1, PAY: a payload byte and its index. -/
  | pay (byte : Byte) (idx : Half)
  /-- KIND 0x2, END: whether the checksum matched, the one received and the one computed. -/
  | endFrame (ok : Bool) (ckrx ckcalc : Half)
  /-- KIND 0x3, BADCMD: the byte found in the command position. -/
  | badCmd (byte : Byte)
  deriving DecidableEq, Repr

/-- The event word of an event; every bit R88 does not list for the kind is 0. -/
def eventWord : Event → EventWord
  | .hdr cmd addr len => len ++ addr ++ cmd ++ 0#4 ++ 0x0#4
  | .pay byte idx => 0#32 ++ idx ++ byte ++ 0#4 ++ 0x1#4
  | .endFrame ok ckrx ckcalc => 0#16 ++ ckcalc ++ ckrx ++ 0#11 ++ BitVec.ofBool ok ++ 0x2#4
  | .badCmd byte => 0#48 ++ byte ++ 0#4 ++ 0x3#4

/-- KIND = bits 3:0 of an event word (R88). -/
def eventKind (w : EventWord) : BitVec 4 := w.extractLsb' 0 4

/-- The event that a word's listed fields give (R88); KIND 0x4 to 0xF is none. -/
def eventFields (w : EventWord) : Option Event :=
  match eventKind w with
  | 0x0#4 => some (.hdr (w.extractLsb' 8 8) (w.extractLsb' 16 32) (w.extractLsb' 48 16))
  | 0x1#4 => some (.pay (w.extractLsb' 8 8) (w.extractLsb' 16 16))
  | 0x2#4 => some (.endFrame (w.getLsbD 4) (w.extractLsb' 16 16) (w.extractLsb' 32 16))
  | 0x3#4 => some (.badCmd (w.extractLsb' 8 8))
  | _ => none

end Sys2Proof.Machine
end

