-- ==== Sys2Proof/Machine/Flags.lean ====
section
/-! DEFINITION. The four errors (R200), the sticky bits they set (R34) and the STATUS register (R29). -/

namespace Sys2Proof.Machine

/-- An error with the information its rule passes to `raise` (R200, R201). -/
inductive CodecError where
  /-- code 0 -/
  | addressOutOfRange (addr : Addr)
  /-- code 1 -/
  | illegalOp (op : BitVec 4)
  /-- code 2 -/
  | rxChecksumMismatch (ckrx ckcalc : Half)
  /-- code 3 -/
  | rxBadCommand (b : Byte)
  deriving DecidableEq, Repr

/-- The code of an error, which is the number of its STATUS bit (R200). -/
def CodecError.code : CodecError → Nat
  | .addressOutOfRange _ => 0
  | .illegalOp _ => 1
  | .rxChecksumMismatch _ _ => 2
  | .rxBadCommand _ => 3

/-- Set an error's own sticky bit and leave the others (R201); the information is not stored here (R200). -/
def Sticky.mark (k : Sticky) : CodecError → Sticky
  | .addressOutOfRange _ => { k with eAddr := true }
  | .illegalOp _ => { k with eIllop := true }
  | .rxChecksumMismatch _ _ => { k with eRxck := true }
  | .rxBadCommand _ => { k with eRxcmd := true }

/-- TX_BUSY: TXPH is not IDLE (R29). -/
def State.txBusy (s : State) : Bool := decide (s.tx.ph ≠ .idle)

/-- RX_INFRAME: RXPH is not HUNT0 and not HUNT1 (R29). -/
def State.rxInFrame (s : State) : Bool := decide (s.rx.ph ≠ .hunt0 ∧ s.rx.ph ≠ .hunt1)

/-- TX_NEEDDATA: TXPH = PAY and PBV = 0 (R29). -/
def State.txNeedData (s : State) : Bool := decide (s.tx.ph = .pay) && !s.tx.pbv

/-- STATUS as the host reads it (R29): bits 15:11 and 7:4 read 0, the live bits are computed. -/
def State.status (s : State) : Half :=
  0#5 ++ BitVec.ofBool s.txNeedData ++ BitVec.ofBool s.rxInFrame ++ BitVec.ofBool s.txBusy ++ 0#4 ++
    BitVec.ofBool s.err.eRxcmd ++ BitVec.ofBool s.err.eRxck ++ BitVec.ofBool s.err.eIllop ++
    BitVec.ofBool s.err.eAddr

end Sys2Proof.Machine
end

