-- ==== Sys2Proof/Machine/Ops.lean ====
section
/-! DEFINITION. The shared operations: raising and clearing errors, the accumulators, the acceptance of a TX op,
the serializer's and the deframer's steps, the ports and the reset input. The block has no memory and
no MemRead or MemWrite (R50). -/

namespace Sys2Proof.Machine

/-! ## Errors: the block's whole exception mechanism (R201, R207, R208) -/

/-- `raise E(info)`: set E's sticky bit; nothing is saved and control goes nowhere (R201). -/
def State.raise (e : CodecError) (s : State) : State := s.withErr (s.err.mark e)

/-- Clear the four sticky bits: what the spec has in place of a return from an exception (R181, R208). -/
def State.clearErrors (s : State) : State := s.withErr Sticky.clear

/-! ## The event log -/

/-- `Post(e)`: append the event word of e at the tail of EVLOG (R33). -/
def State.post (e : Event) (s : State) : State := s.withEvlog (s.evlog ++ [eventWord e])

/-! ## Command acceptance -/

/-- The TX ops (R74). -/
def isTxOp : Instr → Bool
  | .txWrite _ _ => true
  | .txRead _ _ => true
  | .txBuild _ _ _ _ _ => true
  | .nop => false
  | .ckClear => false
  | .ckAdd _ => false
  | .rxReset => false
  | .clrStatus => false
  | .reserved _ => false

/-- A TX op can be accepted only at TXPH = IDLE, any other op at every step (R26). -/
def State.accepts (i : Instr) (s : State) : Bool := !isTxOp i || decide (s.tx.ph = .idle)

/-! ## The serializer (R120 to R133) -/

/-- `start(cmd, len, pcnt, ckm, ckv)` for the address `addr` (R121): latch the operands, clear TXIDX,
TXACC and PBV and go to S0. PBUF keeps its value. -/
def txStart (cmd : Byte) (addr : Addr) (len pcnt : Half) (ckm : CkMode) (ckv : Half) (t : Tx) : Tx :=
  { t with
    cmd := cmd, addr := addr, len := len, pcnt := pcnt, ckm := ckm, ckv := ckv
    idx := 0x0000#16, acc := 0x0000#16, pbv := false, ph := .s0 }

/-- A TX op in the step in which it is issued (R203): held while TXPH is not IDLE, refused with E_ADDR when its
address is above ADDR_LIMIT (R6, R122), and else started (R121). -/
def State.txOp (cmd : Byte) (addr : Addr) (len pcnt : Half) (ckm : CkMode) (ckv : Half)
    (s : State) : State :=
  if s.tx.ph = .idle then
    if s.addrLimit < addr then s.raise (.addressOutOfRange addr)
    else s.withTx (txStart cmd addr len pcnt ckm ckv s.tx)
  else s

/-- CK, the checksum field: TXACC in mode ACC, TXCKV in mode FIX (R126). -/
def txCk (t : Tx) : Half :=
  match t.ckm with
  | .acc => t.acc
  | .fix => t.ckv

/-- The byte the serializer presents on the TX port, none where it presents none (R126). -/
def txPresented (t : Tx) : Option Byte :=
  match t.ph with
  | .idle => none
  | .s0 => some Config.sync0
  | .s1 => some Config.sync1
  | .cmd => some t.cmd
  | .a0 => some (t.addr.extractLsb' 0 8)
  | .a1 => some (t.addr.extractLsb' 8 8)
  | .a2 => some (t.addr.extractLsb' 16 8)
  | .a3 => some (t.addr.extractLsb' 24 8)
  | .l0 => some (t.len.extractLsb' 0 8)
  | .l1 => some (t.len.extractLsb' 8 8)
  | .pay => if t.pbv then some t.pbuf else none
  | .k0 => some ((txCk t).extractLsb' 0 8)
  | .k1 => some ((txCk t).extractLsb' 8 8)

/-- The serializer after the payload byte in PBUF is sent (R129). -/
def txSendPayload (t : Tx) : Tx :=
  { t with
    acc := accAdd t.acc t.pbuf
    idx := t.idx + 1#16
    pbv := false
    ph := if t.idx + 1#16 = t.pcnt then .k0 else .pay }

/-- The serializer after the TX line took the byte it presented (R127; in PAY, R129). -/
def txAdvance (t : Tx) : Tx :=
  match t.ph with
  | .idle => t
  | .s0 => { t with ph := .s1 }
  | .s1 => { t with ph := .cmd }
  | .cmd => { t with ph := .a0 }
  | .a0 => { t with ph := .a1 }
  | .a1 => { t with ph := .a2 }
  | .a2 => { t with ph := .a3 }
  | .a3 => { t with ph := .l0 }
  | .l0 => { t with ph := .l1 }
  | .l1 => { t with ph := if t.pcnt = 0#16 then .k0 else .pay }
  | .pay => txSendPayload t
  | .k0 => { t with ph := .k1 }
  | .k1 => { t with ph := .idle }

/-- A TX line step, `Emit(b)` (R54): not enabled where no byte is presented, and then nothing happens. -/
def State.txLineStep (s : State) : State :=
  match txPresented s.tx with
  | none => s
  | some b => (s.withTx (txAdvance s.tx)).withTxlog (s.txlog ++ [b])

/-- Whether the payload port takes a byte: TXPH = PAY and PBV = 0 (R128). -/
def State.payloadReady (s : State) : Bool := decide (s.tx.ph = .pay) && !s.tx.pbv

/-- `PUT b` where it is enabled: PBUF <- b, PBV <- 1 (R128). -/
def State.putByte (b : Byte) (s : State) : State := s.withTx { s.tx with pbuf := b, pbv := true }

/-! ## The deframer (R150 to R166) -/

/-- What one delivered byte does to the deframer: its registers after, the event it posts and the error it
raises, at most one of each (R204). -/
@[ext]
structure RxResult where
  rx : Rx
  event : Option Event
  error : Option CodecError
  deriving DecidableEq, Repr

/-- `HuntNext(b)` (R151). -/
def huntNext (b : Byte) : RxPhase := if b = Config.sync0 then .hunt1 else .hunt0

/-- The CMD phase (R154). -/
def rxCommand (b : Byte) (r : Rx) : RxResult :=
  if b = Config.cmdWrite ∨ b = Config.cmdRead then
    { rx := { r with cmd := b, addr := 0x00000000#32, len := 0x0000#16, idx := 0x0000#16, acc := 0x0000#16, ph := .a0 }
      event := none
      error := none }
  else
    { rx := { r with ph := huntNext b }
      event := some (.badCmd b)
      error := some (.rxBadCommand b) }

/-- An address byte at position k, which moves on to the phase given (R155). -/
def rxAddress (k : Nat) (next : RxPhase) (b : Byte) (r : Rx) : RxResult :=
  { rx := { r with addr := r.addr ||| (zext32 b <<< (8 * k)), ph := next }
    event := none
    error := none }

/-- The payload bytes a received frame carries: its length field for WRITE, none for READ (R85, R156). -/
def rxPayloadCount (cmd : Byte) (len : Half) : Half := if cmd = Config.cmdWrite then len else 0x0000#16

/-- The L1 phase (R156): the length field is complete and the header is posted. -/
def rxHeaderEnd (b : Byte) (r : Rx) : RxResult :=
  let len := r.len ||| (zext16 b <<< 8)
  let pcnt := rxPayloadCount r.cmd len
  { rx := { r with len := len, pcnt := pcnt, ph := if pcnt = 0#16 then .k0 else .pay }
    event := some (.hdr r.cmd r.addr len)
    error := none }

/-- The PAY phase (R157). -/
def rxPayload (b : Byte) (r : Rx) : RxResult :=
  { rx :=
      { r with
        acc := accAdd r.acc b
        idx := r.idx + 1#16
        ph := if r.idx + 1#16 = r.pcnt then .k0 else .pay }
    event := some (.pay b r.idx)
    error := none }

/-- The K1 phase (R159): compare the checksum received with the one computed. -/
def rxCheck (b : Byte) (r : Rx) : RxResult :=
  let ckrx := zext16 r.ckl ||| (zext16 b <<< 8)
  { rx := { r with ph := .hunt0 }
    event := some (.endFrame (decide (ckrx = r.acc)) ckrx r.acc)
    error := if ckrx = r.acc then none else some (.rxChecksumMismatch ckrx r.acc) }

/-- The HUNT1 phase (R153). -/
def rxSecondSync (b : Byte) (r : Rx) : RxResult :=
  { rx := { r with ph := if b = Config.sync1 then .cmd else if b = Config.sync0 then .hunt1 else .hunt0 }
    event := none
    error := none }

/-- `Deliver(b)` inside the deframer: exactly one phase rule applies (R150, R152 to R159). -/
def rxReceive (b : Byte) (r : Rx) : RxResult :=
  match r.ph with
  | .hunt0 => { rx := { r with ph := huntNext b }, event := none, error := none }
  | .hunt1 => rxSecondSync b r
  | .cmd => rxCommand b r
  | .a0 => rxAddress 0 .a1 b r
  | .a1 => rxAddress 1 .a2 b r
  | .a2 => rxAddress 2 .a3 b r
  | .a3 => rxAddress 3 .l0 b r
  | .l0 => { rx := { r with len := zext16 b, ph := .l1 }, event := none, error := none }
  | .l1 => rxHeaderEnd b r
  | .pay => rxPayload b r
  | .k0 => { rx := { r with ckl := b, ph := .k1 }, event := none, error := none }
  | .k1 => rxCheck b r

/-- Post an event where there is one. -/
def State.postAny (e : Option Event) (s : State) : State :=
  match e with
  | none => s
  | some e => s.post e

/-- Raise an error where there is one. -/
def State.raiseAny (e : Option CodecError) (s : State) : State :=
  match e with
  | none => s
  | some e => s.raise e

/-- An RX line step (R55): always enabled, one deframer rule for the byte. -/
def State.rxLineStep (b : Byte) (s : State) : State :=
  let r := rxReceive b s.rx
  ((s.withRx r.rx).postAny r.event).raiseAny r.error

/-! ## The reset input -/

/-- The reset input at a later step (R230, R231): the block takes its reset values and EVLOG is discarded; the TX
line keeps what it has taken in TXLOG (DEDUCED, notes/assumptions/4.md), and the threads and ADDR_LIMIT stay. -/
def State.resetBlock (s : State) : State :=
  (((State.resetWith s.addrLimit).withTxlog s.txlog).withThreads s.threads).withSched s.sched

end Sys2Proof.Machine
end

