-- ==== Sys2Proof/Machine/Agents.lean ====
section
/-! DEFINITION. The agents of R4 around the block: what a host thread's next action does (R25, R30, R31, R33, R128),
whose turn it is, and the move a turn comes to. A turn that is not enabled holds: it changes nothing but `sched`. -/

namespace Sys2Proof.Machine

/-- What a turn comes to: a command word on the command port, for `exec` to carry out at the state given, or a
step that is already complete. -/
inductive Move where
  | command (i : Instr) (s : State)
  | done (s : State)
  deriving DecidableEq, Repr

/-- Write thread k. -/
def State.setThread (k : Nat) (t : HostThread) (s : State) : State := s.withThreads (s.threads.set k t)

/-- Thread k goes past its action: `rest` is what is left to do. -/
def State.retire (k : Nat) (t : HostThread) (rest : List HostAction) (s : State) : State :=
  s.setThread k { t with prog := rest }

/-- Thread k goes past a read, which returned `r`. -/
def State.retireRead (k : Nat) (t : HostThread) (rest : List HostAction) (r : Reading) (s : State) : State :=
  s.setThread k { prog := rest, reads := t.reads ++ [r] }

/-- A command word on the port (R25 to R27): thread k goes past it where it is accepted and stays where it holds;
`exec` then carries out the word, or changes nothing where it holds. -/
def State.issueWord (k : Nat) (t : HostThread) (rest : List HostAction) (w : CmdWord) (s : State) : Move :=
  .command (decode w) (if s.accepts (decode w) then s.retire k t rest else s)

/-- `PUT b` (R128): taken where the payload port is ready, else held. -/
def State.hostPut (k : Nat) (t : HostThread) (rest : List HostAction) (b : Byte) (s : State) : State :=
  if s.payloadReady then (s.putByte b).retire k t rest else s

/-- `RDSTAT` returns STATUS as it is before the step (R30). -/
def State.hostReadStatus (k : Nat) (t : HostThread) (rest : List HostAction) (s : State) : State :=
  s.retireRead k t rest (.status s.status)

/-- `RDACC` returns HACC as it is before the step (R31). -/
def State.hostReadAcc (k : Nat) (t : HostThread) (rest : List HostAction) (s : State) : State :=
  s.retireRead k t rest (.ckAcc s.hacc)

/-- `TAKEEV` removes and returns the head of EVLOG; on an empty EVLOG it holds (R33). -/
def State.hostTake (k : Nat) (t : HostThread) (rest : List HostAction) (s : State) : State :=
  match s.evlog with
  | [] => s
  | w :: ws => (s.withEvlog ws).retireRead k t rest (.event w)

/-- The turn of host thread k: its next action in program order (R4). A thread that is not there, or that has
finished its program, takes no step. -/
def State.hostMove (k : Nat) (s : State) : Move :=
  match s.threads[k]? with
  | none => .done s
  | some t =>
    match t.prog with
    | [] => .done s
    | .issue w :: rest => s.issueWord k t rest w
    | .put b :: rest => .done (s.hostPut k t rest b)
    | .rdStat :: rest => .done (s.hostReadStatus k t rest)
    | .rdAcc :: rest => .done (s.hostReadAcc k t rest)
    | .takeEv :: rest => .done (s.hostTake k t rest)

/-- The move of one turn (R4, R11). -/
def State.moveOf (turn : Turn) (s : State) : Move :=
  match turn with
  | .host k => s.hostMove k
  | .txLine => .done s.txLineStep
  | .rxLine b => .done (s.rxLineStep b)
  | .resetInput => .done s.resetBlock

/-- The next move: the turn at the head of `sched`, which it leaves; with no turn due nothing moves. -/
def State.nextMove (s : State) : Move :=
  match s.sched with
  | [] => .done s
  | turn :: rest => (s.withSched rest).moveOf turn

/-- The word `w` put where the next turn fetches it: thread 0, made where there is none, issues it as its next action
and takes the next turn. -/
def State.fetchNext (w : CmdWord) (s : State) : State :=
  let threads := match s.threads with
    | [] => [{ prog := [.issue w], reads := [] }]
    | t :: ts => { t with prog := .issue w :: t.prog } :: ts
  (s.withThreads threads).withSched (.host 0 :: s.sched)

end Sys2Proof.Machine
end

