-- ==== Sys2Proof/Machine/Checksum.lean ====
section
/-! DEFINITION. The host accumulator ops CK_CLEAR and CK_ADD (41_checksum.md). -/

namespace Sys2Proof.Machine

/-- CK_CLEAR: HACC <- 0 (R104). -/
def execCkClear (s : State) : Host.Outcome State Fault Refusal := .next (s.withHacc 0x0000#16)

/-- CK_ADD: HACC <- AccAdd(HACC, DATA) (R105). -/
def execCkAdd (data : Byte) (s : State) : Host.Outcome State Fault Refusal :=
  .next (s.withHacc (accAdd s.hacc data))

end Sys2Proof.Machine
end

