-- ==== Sys2Proof/Machine/Control.lean ====
section
/-! DEFINITION. NOP, CLR_STATUS and the reserved ops (44_control.md). -/

namespace Sys2Proof.Machine

/-- NOP: no state changes (R180). -/
def execNop (s : State) : Host.Outcome State Fault Refusal := .next s

/-- CLR_STATUS: the four sticky bits <- 0 (R181). -/
def execClrStatus (s : State) : Host.Outcome State Fault Refusal := .next s.clearErrors

/-- A reserved op: raise IllegalOp(OP), nothing else (R182). -/
def execReserved (op : BitVec 4) (s : State) : Host.Outcome State Fault Refusal := .next (s.raise (.illegalOp op))

end Sys2Proof.Machine
end

