-- ==== Sys2Proof/Machine/Receive.lean ====
section
/-! DEFINITION. RX_RESET (43_receive.md R163). The deframer's own steps are in Machine/Ops.lean. -/

namespace Sys2Proof.Machine

/-- RX_RESET: RXPH <- HUNT0; every other RX register, EVLOG and the sticky bits keep their values (R163). -/
def execRxReset (s : State) : Host.Outcome State Fault Refusal := .next (s.withRx { s.rx with ph := .hunt0 })

end Sys2Proof.Machine
end

