-- ==== Sys2Proof/Machine/Transmit.lean ====
section
/-! DEFINITION. The TX ops TX_WRITE, TX_READ and TX_BUILD in the step in which they are issued
(42_transmit.md). While TXPH is not IDLE each holds: the state does not change. -/

namespace Sys2Proof.Machine

/-- TX_WRITE: a WRITE frame whose LEN is also its payload count, with the checksum of TXACC (R123). -/
def execTxWrite (addr : Addr) (len : Half) (s : State) : Host.Outcome State Fault Refusal :=
  .next (s.txOp Config.cmdWrite addr len len .acc 0x0000#16)

/-- TX_READ: a READ frame with no payload and the fixed checksum 0 (R124). -/
def execTxRead (addr : Addr) (len : Half) (s : State) : Host.Outcome State Fault Refusal :=
  .next (s.txOp Config.cmdRead addr len 0x0000#16 .fix 0x0000#16)

/-- TX_BUILD: any frame, from fields given one by one; only the address is checked (R125). -/
def execTxBuild (csel : FrameCmd) (addr : Addr) (len pcnt ckv : Half) (s : State) :
    Host.Outcome State Fault Refusal :=
  .next (s.txOp csel.byte addr len pcnt .fix ckv)

end Sys2Proof.Machine
end

