-- ==== Sys2Proof/Machine/Dispatch.lean ====
section
/-! DEFINITION. The block's effect of an issued command word, one arm per row of the opcode table. -/

namespace Sys2Proof.Machine

def exec (i : Instr) (s : State) : Host.Outcome State Fault Refusal :=
  match i with
  | .nop => Sys2Proof.Machine.execNop s
  | .ckClear => Sys2Proof.Machine.execCkClear s
  | .ckAdd data => Sys2Proof.Machine.execCkAdd data s
  | .txWrite addr len => Sys2Proof.Machine.execTxWrite addr len s
  | .txRead addr len => Sys2Proof.Machine.execTxRead addr len s
  | .txBuild csel addr len pcnt ckv => Sys2Proof.Machine.execTxBuild csel addr len pcnt ckv s
  | .rxReset => Sys2Proof.Machine.execRxReset s
  | .clrStatus => Sys2Proof.Machine.execClrStatus s
  | .reserved op => Sys2Proof.Machine.execReserved op s

end Sys2Proof.Machine
end

