-- ==== Sys2Proof/Machine/Step.lean ====
section
/-! DEFINITION. One step of the machine: one atomic step of one agent (R11). -/

namespace Sys2Proof.Machine

/-- The agent whose turn it is takes its step; a command word on the port is carried out by `exec`. -/
def step (s : State) : Host.Outcome State Fault Refusal :=
  match s.nextMove with
  | .done s' => .next s'
  | .command i s' => exec i s'

/-- `s` with the word of `nbits` bits `w` (the bits above them 0) as the next command word a host thread issues,
in the very next step. -/
def State.withFetchWord (s : State) (nbits w : Nat) : State := s.fetchNext (tableWord nbits w)

end Sys2Proof.Machine
end

