-- ==== Sys2Proof/Machine/Asm.lean ====
section
/-! DEFINITION. What a line of the assembler syntax stands for (R90, R91): the host actions it expands to. -/

namespace Sys2Proof.Machine

/-- The `PUT` actions of a payload, in order. -/
def asmPuts (p : List Byte) : List HostAction := p.map .put

/-- The command word of an instruction as a host action (R90). -/
def asmIssue (i : Instr) : HostAction := .issue (encode i)

/-- The host actions of a line; none for a SEND or RAW whose payload count no 16-bit field can hold (R123, I11). -/
def asmExpand : AsmLine → Option (List HostAction)
  | .op i => some [asmIssue i]
  | .word w => some [.issue w]
  | .put b => some [.put b]
  | .rdstat => some [.rdStat]
  | .rdacc => some [.rdAcc]
  | .takeev => some [.takeEv]
  | .send addr p =>
    if p.length < 65536 then some (asmIssue (.txWrite addr (BitVec.ofNat 16 p.length)) :: asmPuts p) else none
  | .sum p => some (asmIssue .ckClear :: p.map fun b => asmIssue (.ckAdd b))
  | .raw csel addr len p ckv =>
    if p.length < 65536 then some (asmIssue (.txBuild csel addr len (BitVec.ofNat 16 p.length) ckv) :: asmPuts p)
    else none
  | .req addr len => some [asmIssue (.txRead addr len)]

/-- A program: its lines' actions one after another; none where a line has none. -/
def asmProgram : List AsmLine → Option (List HostAction)
  | [] => some []
  | l :: ls =>
    match asmExpand l, asmProgram ls with
    | some a, some as => some (a ++ as)
    | _, _ => none

end Sys2Proof.Machine
end

