-- ==== Sys2Proof/Safety.lean ====
section
/-! DEFINITION. The terms the claims use: runs of the transmit side, the receive side and the command port, and the
invariants of the registers and of the frame in progress. A safe run never faults: the block has no trap (R207). -/

namespace Sys2Proof.Machine

/-! ## Runs -/

/-- A step of the transmit side: the TX line's (R54), or a host's offer of a payload byte (R128). -/
inductive TxMove where
  | take
  | put (b : Byte)
  deriving DecidableEq, Repr

/-- The state after a list of transmit steps, and the payload bytes that the port took, in order. A step that is
not enabled holds: it changes nothing and takes nothing. -/
def txRun : List TxMove → State → State × List Byte
  | [], s => (s, [])
  | .take :: ms, s => txRun ms s.txLineStep
  | .put b :: ms, s =>
    if s.payloadReady then ((txRun ms (s.putByte b)).1, b :: (txRun ms (s.putByte b)).2) else txRun ms s

/-- The steps that carry one frame with the payload `p` out, none of them held (R243). -/
def frameMoves (p : List Byte) : List TxMove :=
  List.replicate Config.hdrBytes .take ++ (p.map fun b => [TxMove.put b, TxMove.take]).flatten ++
    List.replicate Config.trlBytes .take

/-- The state after the RX line delivered the bytes, in order (R55). -/
def deliverAll : List Byte → State → State
  | [], s => s
  | b :: bs, s => deliverAll bs (s.rxLineStep b)

/-- The outcome of instructions issued one after another. -/
def execAll : List Instr → State → Host.Outcome State Fault Refusal
  | [], s => .next s
  | i :: is, s =>
    match exec i s with
    | .next t => execAll is t
    | .fault r => .fault r
    | .refused r => .refused r

/-- The events of a frame received whole (R89, R164). -/
def frameEvents (c : Byte) (a : Addr) (l : Half) (p : List Byte) (k : Half) : List Event :=
  [.hdr c a l] ++ (p.zipIdx.map fun x => .pay x.1 (BitVec.ofNat 16 x.2)) ++
    [.endFrame (decide (k = checksum p)) k (checksum p)]

/-- The state but for the sticky bits. -/
def State.sansErr (s : State) : State := s.withErr Sticky.clear

/-! ## Where a unit stands -/

/-- The phases before the payload: S0 to L1. -/
def TxPhase.inHeader : TxPhase → Bool
  | .s0 | .s1 | .cmd | .a0 | .a1 | .a2 | .a3 | .l0 | .l1 => true
  | .idle | .pay | .k0 | .k1 => false

/-- The hunt: HUNT0 and HUNT1 (R150). -/
def RxPhase.hunts : RxPhase → Bool
  | .hunt0 | .hunt1 => true
  | .cmd | .a0 | .a1 | .a2 | .a3 | .l0 | .l1 | .pay | .k0 | .k1 => false

/-- The phases from A0 to L1: a command byte is taken and the header is not yet complete. -/
def RxPhase.inHeader : RxPhase → Bool
  | .a0 | .a1 | .a2 | .a3 | .l0 | .l1 => true
  | .hunt0 | .hunt1 | .cmd | .pay | .k0 | .k1 => false

/-- The phases from PAY to K1: the header is complete. -/
def RxPhase.pastHeader : RxPhase → Bool
  | .pay | .k0 | .k1 => true
  | .hunt0 | .hunt1 | .cmd | .a0 | .a1 | .a2 | .a3 | .l0 | .l1 => false

/-- How many bytes of the frame in progress have been taken, where `n` payload bytes are among them. -/
def TxPhase.sent (n : Nat) : TxPhase → Nat
  | .idle => 0
  | .s0 => 0
  | .s1 => 1
  | .cmd => 2
  | .a0 => 3
  | .a1 => 4
  | .a2 => 5
  | .a3 => 6
  | .l0 => 7
  | .l1 => 8
  | .pay => 9 + n
  | .k0 => 9 + n
  | .k1 => 10 + n

/-- How many bits of RXADDR the address bytes delivered so far may have set. -/
def RxPhase.addrBits : RxPhase → Nat
  | .a0 => 0
  | .a1 => 8
  | .a2 => 16
  | .a3 => 24
  | .hunt0 | .hunt1 | .cmd | .l0 | .l1 | .pay | .k0 | .k1 => 32

/-! ## Invariants -/

/-- What the serializer's registers satisfy where ADDR_LIMIT is `limit` (R6, R28, R82, R121, R122, R127, R129). -/
structure TxInv (limit : Addr) (t : Tx) : Prop where
  pbv_pay : t.pbv = true → t.ph = .pay
  cmd_enum : t.ph ≠ .idle → t.cmd = Config.cmdWrite ∨ t.cmd = Config.cmdRead
  addr_limit : t.ph ≠ .idle → t.addr ≤ limit
  header : t.ph.inHeader = true → t.idx = 0#16 ∧ t.acc = 0#16
  pay_idx : t.ph = .pay → t.idx < t.pcnt
  trailer_idx : t.ph = .k0 ∨ t.ph = .k1 → t.idx = t.pcnt

/-- What the deframer's registers satisfy (R154 to R159). -/
structure RxInv (r : Rx) : Prop where
  cmd_enum : r.ph.inHeader = true ∨ r.ph.pastHeader = true → r.cmd = Config.cmdWrite ∨ r.cmd = Config.cmdRead
  header : r.ph.inHeader = true → r.idx = 0#16 ∧ r.acc = 0#16
  addr_bits : r.addr.toNat < 2 ^ r.ph.addrBits
  len_bits : r.ph = .l1 → r.len.toNat < 256
  pcnt : r.ph.pastHeader = true → r.pcnt = rxPayloadCount r.cmd r.len
  pay_idx : r.ph = .pay → r.idx < r.pcnt
  trailer_idx : r.ph = .k0 ∨ r.ph = .k1 → r.idx = r.pcnt

/-- The invariant of the registers; EVLOG holds only words of the four kinds of R88. -/
structure State.Inv (s : State) : Prop where
  tx : TxInv s.addrLimit s.tx
  rx : RxInv s.rx
  evlog : ∀ w ∈ s.evlog, ∃ e : Event, w = eventWord e

/-- The bytes of the frame in progress that the TX line has taken are the first bytes of that frame (R60, R131): TXLOG
ends with them, TXIDX counts the payload bytes among them and TXACC is their checksum. -/
def State.FrameInv (s : State) : Prop :=
  s.tx.ph ≠ .idle →
    ∃ earlier p : List Byte,
      p.length = s.tx.idx.toNat ∧ s.tx.acc = checksum p ∧
        s.txlog = earlier ++ (frame s.tx.cmd s.tx.addr s.tx.len p (txCk s.tx)).take (s.tx.ph.sent p.length)

/-- Thread `t` is finished, or held on a TX op. -/
def HostThread.blocked (t : HostThread) : Prop :=
  t.prog = [] ∨ ∃ w rest, t.prog = HostAction.issue w :: rest ∧ isTxOp (decode w) = true

end Sys2Proof.Machine
end

