-- ==== Sys2Proof/Certificates/Slice0/Obligations.lean ====
section
/-! DEFINITION. The statements for the provers. A state written `{ s with ... }` is s in every field not named, so each
such equation is also the frame: nothing else of the state changes. -/

open Sys2Proof Sys2Proof.Machine

/-! ## Encodings -/

/-- Decoding the assembled word of a well-formed instruction gives it back, every operand included (R73, R90, R92). -/
def Obligations.DecodeOfEncode : Prop :=
  ∀ i : Instr, i.wellFormed = true → decode (encode i) = i

/-- Encoding the instruction read from any word keeps exactly the bits that R73 marks as read for its op: no bit an op
reads is dropped, and every other bit of the assembled word is 0 (R90). -/
def Obligations.EncodeOfDecodeKeepsReadBits : Prop :=
  ∀ w : CmdWord, encode (decode w) = w &&& readMask (opField w)

/-- Two words with the same OP that agree on the fields R73 marks as read for that op are the same instruction, with the
same effect, whatever their other bits; and no word makes the block stop. -/
def Obligations.UnreadFieldsHaveNoEffect : Prop :=
  ∀ w w' : CmdWord,
    opField w = opField w' →
    (opField w = 0x2#4 → dataField w = dataField w') →
    (opField w = 0x3#4 ∨ opField w = 0x4#4 ∨ opField w = 0x5#4 → addrField w = addrField w' ∧ lenField w = lenField w') →
    (opField w = 0x5#4 → cselField w = cselField w' ∧ pcntField w = pcntField w' ∧ ckvField w = ckvField w') →
    decode w = decode w' ∧ ∀ s, ∃ t, exec (decode w) s = .next t ∧ exec (decode w') s = .next t

/-- The op of a decoded word is chosen by OP alone, over all sixteen values (R92). -/
def Obligations.DecodeSelectsByOpAlone : Prop :=
  ∀ w : CmdWord,
    (opField w = 0x0#4 → decode w = .nop) ∧
    (opField w = 0x1#4 → decode w = .ckClear) ∧
    (opField w = 0x2#4 → decode w = .ckAdd (dataField w)) ∧
    (opField w = 0x3#4 → decode w = .txWrite (addrField w) (lenField w)) ∧
    (opField w = 0x4#4 → decode w = .txRead (addrField w) (lenField w)) ∧
    (opField w = 0x5#4 →
      decode w = .txBuild (if cselField w = 0#1 then .write else .read) (addrField w) (lenField w) (pcntField w)
        (ckvField w)) ∧
    (opField w = 0x6#4 → decode w = .rxReset) ∧
    (opField w = 0x7#4 → decode w = .clrStatus) ∧
    (0x8#4 ≤ opField w → decode w = .reserved (opField w))

/-- Command words that the spec writes out, one for each op, decode to the instruction they stand for. -/
def Obligations.SpecWordsDecode : Prop :=
  decode 0xFFFFFFFFFFFFFFFFFFFFFFF0#96 = .nop ∧
  decode 0x000000000000000000000001#96 = .ckClear ∧
  decode 0x00000000000000000000A502#96 = .ckAdd 0xA5#8 ∧
  decode 0x0000000000020000000A0003#96 = .txWrite 0x0000000A#32 0x0002#16 ∧
  decode 0x000000000010000012340004#96 = .txRead 0x00001234#32 0x0010#16 ∧
  decode 0x123400020004000001000005#96 = .txBuild .write 0x00000100#32 0x0004#16 0x0002#16 0x1234#16 ∧
  decode 0x000100010000000000200015#96 = .txBuild .read 0x00000020#32 0x0000#16 0x0001#16 0x0001#16 ∧
  decode 0x000000000000000000000006#96 = .rxReset ∧
  decode 0x000000000000000000000007#96 = .clrStatus ∧
  decode 0x00000000000200010000000B#96 = .reserved 0xB#4

/-- The fields of an event word give its event back: no field of any kind is dropped (R88). -/
def Obligations.EventOfEventWord : Prop :=
  ∀ e : Event, eventFields (eventWord e) = some e

/-- The layout of the four kinds of event word, field by field with the unlisted bits 0, and the only words an RX line
step adds to EVLOG (R88). -/
def Obligations.EventWordLayout : Prop :=
  (∀ c a l, (eventWord (.hdr c a l)).toNat = l.toNat * 2 ^ 48 + a.toNat * 2 ^ 16 + c.toNat * 2 ^ 8 + 0x0) ∧
  (∀ b n, (eventWord (.pay b n)).toNat = n.toNat * 2 ^ 16 + b.toNat * 2 ^ 8 + 0x1) ∧
  (∀ ok r c, (eventWord (.endFrame ok r c)).toNat =
    c.toNat * 2 ^ 32 + r.toNat * 2 ^ 16 + (if ok then 1 else 0) * 2 ^ 4 + 0x2) ∧
  (∀ b, (eventWord (.badCmd b)).toNat = b.toNat * 2 ^ 8 + 0x3) ∧
  (∀ (b : Byte) (s : State), (s.rxLineStep b).evlog = s.evlog ∨ ∃ e, (s.rxLineStep b).evlog = s.evlog ++ [eventWord e])

/-- The frame function's bytes at their offsets, and its size (R80). -/
def Obligations.FrameBytesByOffset : Prop :=
  ∀ (c : Byte) (a : Addr) (l k : Half) (p : List Byte),
    (frame c a l p k).length = 11 + p.length ∧
    (frame c a l p k).take 9 =
      [0xAA#8, 0x55#8, c, a.extractLsb' 0 8, a.extractLsb' 8 8, a.extractLsb' 16 8, a.extractLsb' 24 8,
        l.extractLsb' 0 8, l.extractLsb' 8 8] ∧
    ((frame c a l p k).drop 9).take p.length = p ∧
    (frame c a l p k).drop (9 + p.length) = [k.extractLsb' 0 8, k.extractLsb' 8 8]

/-! ## The checksum accumulator -/

/-- CK_CLEAR (R104): OP 0x1, accepted at every step; HACC <- 0 and nothing else. -/
def Obligations.CkClearClearsHacc : Prop :=
  (∀ w, opField w = 0x1#4 → decode w = .ckClear) ∧ encode .ckClear = 0x000000000000000000000001#96 ∧
    ∀ s : State, s.accepts .ckClear = true ∧ exec .ckClear s = .next { s with hacc := 0x0000#16 }

/-- CK_ADD (R105): OP 0x2 with DATA, accepted at every step; HACC <- (HACC + DATA) mod 65536 and nothing else. -/
def Obligations.CkAddAddsItsByte : Prop :=
  (∀ w, opField w = 0x2#4 → decode w = .ckAdd (dataField w)) ∧ encode (.ckAdd 0xA5#8) = 0x00000000000000000000A502#96 ∧
    ∀ (d : Byte) (s : State), s.accepts (.ckAdd d) = true ∧
      exec (.ckAdd d) s = .next { s with hacc := BitVec.ofNat 16 ((s.hacc.toNat + d.toNat) % 65536) }

/-- Starting from 0 and adding the bytes of p in order gives checksum(p) (R102, an inference that the spec marks as
its own); started from the checksum of the bytes before them, it gives that of all of them. -/
def Obligations.FoldOfAccAddIsChecksum : Prop :=
  ∀ p q : List Byte,
    p.foldl accAdd 0x0000#16 = checksum p ∧ q.foldl accAdd (checksum p) = checksum (p ++ q) ∧
      (checksum p).toNat = (p.map BitVec.toNat).sum % 65536

/-- CK_CLEAR and then one CK_ADD per byte of a payload of any length leave its checksum in HACC, and nothing else
changes (R106, an inference that the spec marks as its own). -/
def Obligations.SumSequenceLeavesChecksum : Prop :=
  ∀ (s : State) (p : List Byte), execAll (.ckClear :: p.map .ckAdd) s = .next { s with hacc := checksum p }

/-- The checksum does not depend on the order of the bytes or on bytes 0x00 among them (R107, an inference that
the spec marks as its own). -/
def Obligations.ChecksumIgnoresOrderAndZeros : Prop :=
  (∀ p q : List Byte, p.Perm q → checksum p = checksum q) ∧
  (∀ p q : List Byte, p.filter (· ≠ 0x00#8) = q.filter (· ≠ 0x00#8) → checksum p = checksum q) ∧
  checksum [0x01#8, 0x02#8] = 0x0003#16 ∧ checksum [0x02#8, 0x01#8] = 0x0003#16

/-- HACC is changed only by CK_CLEAR and CK_ADD, and by the reset input (R23, R103). Turns are the model's own
(notes/assumptions/1.md). -/
def Obligations.HaccWrittenOnlyByItsOps : Prop :=
  ∀ s t : State, step s = .next t → t.hacc ≠ s.hacc →
    (∃ rest, s.sched = .resetInput :: rest) ∨
    (∃ u, s.nextMove = .command .ckClear u ∧ t.hacc = 0x0000#16) ∨
    (∃ d u, s.nextMove = .command (.ckAdd d) u ∧ t.hacc = accAdd s.hacc d)

/-! ## Transmission -/

/-- A TX op accepted at IDLE with an address within the limit latches its operands, clears TXIDX, TXACC and PBV and goes
to S0; no byte is emitted in that step and the next TX line step emits 0xAA (R121, with the values that R123 to R125
give it). -/
def Obligations.TxOpStartsItsFrame : Prop :=
  ∀ (s : State) (a : Addr) (l n k : Half) (c : FrameCmd), s.tx.ph = .idle → a ≤ s.addrLimit →
    (exec (.txWrite a l) s = .next { s with tx := {
      ph := .s0, cmd := 0x57#8, addr := a, len := l, pcnt := l, idx := 0x0000#16, ckm := .acc, ckv := 0x0000#16,
      acc := 0x0000#16, pbuf := s.tx.pbuf, pbv := false } }) ∧
    (exec (.txRead a l) s = .next { s with tx := {
      ph := .s0, cmd := 0x52#8, addr := a, len := l, pcnt := 0x0000#16, idx := 0x0000#16, ckm := .fix, ckv := 0x0000#16,
      acc := 0x0000#16, pbuf := s.tx.pbuf, pbv := false } }) ∧
    (exec (.txBuild c a l n k) s = .next { s with tx := {
      ph := .s0, cmd := (if c = .write then 0x57#8 else 0x52#8), addr := a, len := l, pcnt := n,
      idx := 0x0000#16, ckm := .fix, ckv := k, acc := 0x0000#16, pbuf := s.tx.pbuf, pbv := false } }) ∧
    (∀ t : State, t.tx.ph = .s0 → t.txLineStep.txlog = t.txlog ++ [0xAA#8])

/-- A TX op at IDLE whose address is above ADDR_LIMIT, 0xFFFF by default, sets E_ADDR and does nothing else; one whose
address is not above it raises nothing and starts its frame (R122). -/
def Obligations.TxOpChecksItsAddressFirst : Prop :=
  State.reset.addrLimit = 0x0000FFFF#32 ∧
  ∀ (s : State) (a : Addr) (l n k : Half) (c : FrameCmd) (i : Instr), s.tx.ph = .idle →
    i = .txWrite a l ∨ i = .txRead a l ∨ i = .txBuild c a l n k →
    if a.toNat > s.addrLimit.toNat then exec i s = .next { s with err := { s.err with eAddr := true } }
    else ∃ t, exec i s = .next t ∧ t.err = s.err ∧ t.tx.ph = .s0 ∧ t.tx.addr = a

/-- A TX op can be accepted only at TXPH = IDLE and holds elsewhere, changing nothing; any other op, a reserved one
included, can be accepted at every step (R26). -/
def Obligations.TxOpHoldsUnlessIdle : Prop :=
  ∀ (s : State) (i : Instr),
    (s.accepts i = true ↔
      ((∃ a l, i = .txWrite a l) ∨ (∃ a l, i = .txRead a l) ∨ (∃ c a l n k, i = .txBuild c a l n k) → s.tx.ph = .idle)) ∧
    (s.accepts i = false → exec i s = .next s)

/-- While a frame is in progress no op of any kind touches the serializer or TXLOG, and no step but the reset input's
changes the latches of the frame or moves TXPH anywhere but to the phase that the byte presented leads to (R132).
Turns are the model's own (notes/assumptions/1.md). -/
def Obligations.NoOpCutsAFrameShort : Prop :=
  ∀ s : State, s.tx.ph ≠ .idle →
    (∀ i t, exec i s = .next t → t.tx = s.tx ∧ t.txlog = s.txlog) ∧
    (∀ t, step s = .next t → (∀ rest, s.sched ≠ .resetInput :: rest) →
      t.tx.cmd = s.tx.cmd ∧ t.tx.addr = s.tx.addr ∧ t.tx.len = s.tx.len ∧ t.tx.pcnt = s.tx.pcnt ∧
      t.tx.ckm = s.tx.ckm ∧ t.tx.ckv = s.tx.ckv ∧ (t.tx.ph = s.tx.ph ∨ t.tx.ph = (txAdvance s.tx).ph))

/-- The byte presented in each phase, with CK read from TXACC in mode ACC and from TXCKV in mode FIX; none in IDLE, nor
in PAY with PBV = 0 (R126, which the spec marks as derived from R80). -/
def Obligations.PresentedByteOfEachPhase : Prop :=
  ∀ t : Tx,
    let ck : Half := if t.ckm = .acc then t.acc else t.ckv
    (t.ph = .idle → txPresented t = none) ∧
    (t.ph = .s0 → txPresented t = some 0xAA#8) ∧
    (t.ph = .s1 → txPresented t = some 0x55#8) ∧
    (t.ph = .cmd → txPresented t = some t.cmd) ∧
    (t.ph = .a0 → txPresented t = some (t.addr.extractLsb' 0 8)) ∧
    (t.ph = .a1 → txPresented t = some (t.addr.extractLsb' 8 8)) ∧
    (t.ph = .a2 → txPresented t = some (t.addr.extractLsb' 16 8)) ∧
    (t.ph = .a3 → txPresented t = some (t.addr.extractLsb' 24 8)) ∧
    (t.ph = .l0 → txPresented t = some (t.len.extractLsb' 0 8)) ∧
    (t.ph = .l1 → txPresented t = some (t.len.extractLsb' 8 8)) ∧
    (t.ph = .pay → t.pbv = true → txPresented t = some t.pbuf) ∧
    (t.ph = .pay → t.pbv = false → txPresented t = none) ∧
    (t.ph = .k0 → txPresented t = some (ck.extractLsb' 0 8)) ∧
    (t.ph = .k1 → txPresented t = some (ck.extractLsb' 8 8))

/-- A TX line step at a phase other than PAY emits the presented byte and moves TXPH to its successor; it writes no
other state of the block (R127). -/
def Obligations.TxLineStepMovesToTheSuccessor : Prop :=
  ∀ s : State, s.tx.ph ≠ .idle → s.tx.ph ≠ .pay →
    ∃ b ph, txPresented s.tx = some b ∧
      s.txLineStep = { s with tx := { s.tx with ph := ph }, txlog := s.txlog ++ [b] } ∧
      (s.tx.ph = .s0 → ph = .s1) ∧ (s.tx.ph = .s1 → ph = .cmd) ∧ (s.tx.ph = .cmd → ph = .a0) ∧
      (s.tx.ph = .a0 → ph = .a1) ∧ (s.tx.ph = .a1 → ph = .a2) ∧ (s.tx.ph = .a2 → ph = .a3) ∧
      (s.tx.ph = .a3 → ph = .l0) ∧ (s.tx.ph = .l0 → ph = .l1) ∧
      (s.tx.ph = .l1 → ph = if s.tx.pcnt = 0x0000#16 then .k0 else .pay) ∧
      (s.tx.ph = .k0 → ph = .k1) ∧ (s.tx.ph = .k1 → ph = .idle)

/-- A TX line step at PAY with PBV = 1 sends PBUF, adds it to TXACC, counts it, frees the holding register and leaves
PAY after the last payload byte, in either checksum mode; with PBV = 0 it does nothing. TXACC is used only in mode ACC:
in mode FIX no byte presented depends on it (R129). -/
def Obligations.TxLineStepSendsThePayloadByte : Prop :=
  (∀ s : State, s.tx.ph = .pay → s.tx.pbv = true →
    s.txLineStep =
      { s with
        txlog := s.txlog ++ [s.tx.pbuf]
        tx := { s.tx with
          acc := BitVec.ofNat 16 ((s.tx.acc.toNat + s.tx.pbuf.toNat) % 65536)
          idx := s.tx.idx + 1#16
          pbv := false
          ph := if s.tx.idx + 1#16 = s.tx.pcnt then .k0 else .pay } }) ∧
  (∀ s : State, s.tx.ph = .pay → s.tx.pbv = false → s.txLineStep = s) ∧
  (∀ (t : Tx) (acc : Half), t.ckm = .fix → txPresented { t with acc := acc } = txPresented t)

/-- A TX line step is enabled exactly where the serializer presents a byte: TXPH neither IDLE nor PAY, or PAY with
PBV = 1. Enabled, it appends that byte to TXLOG and the serializer advances; not enabled, it changes nothing (R54). -/
def Obligations.TxLineStepTakesThePresentedByte : Prop :=
  ∀ s : State,
    if (s.tx.ph ≠ .idle ∧ s.tx.ph ≠ .pay) ∨ (s.tx.ph = .pay ∧ s.tx.pbv = true) then
      ∃ b, txPresented s.tx = some b ∧ s.txLineStep = { s with tx := txAdvance s.tx, txlog := s.txlog ++ [b] }
    else s.txLineStep = s

/-- `PUT b` of the thread whose turn it is: taken into PBUF exactly at TXPH = PAY with PBV = 0, and held elsewhere, the
thread staying on it (R128). That a held turn is used up is the model's choice (notes/assumptions/2.md). -/
def Obligations.PutIsTakenOnlyInPay : Prop :=
  ∀ (s : State) (k : Nat) (turns : List Turn) (b : Byte) (rest : List HostAction) (reads : List Reading),
    s.sched = .host k :: turns → s.threads[k]? = some { prog := .put b :: rest, reads := reads } →
    if s.tx.ph = .pay ∧ s.tx.pbv = false then
      step s = .next { s with
        tx := { s.tx with pbuf := b, pbv := true }
        threads := s.threads.set k { prog := rest, reads := reads }
        sched := turns }
    else step s = .next { s with sched := turns }

/-- What a TX op accepted with no address fault makes the TX line take is exactly its frame, with the payload that the
payload port took in the meantime, in any order of the transmit steps that brings TXPH back to IDLE (R131, an inference
that the spec marks as its own). -/
def Obligations.AcceptedTxOpEmitsExactlyItsFrame : Prop :=
  ∀ (s s₁ : State) (a : Addr) (l n k : Half) (c : FrameCmd) (moves : List TxMove), s.tx.ph = .idle → a ≤ s.addrLimit →
    let s₂ := (txRun moves s₁).1
    let p := (txRun moves s₁).2
    s₂.tx.ph = .idle →
    (exec (.txWrite a l) s = .next s₁ →
      s₂.txlog = s.txlog ++ frame 0x57#8 a l p (checksum p) ∧ p.length = l.toNat) ∧
    (exec (.txRead a l) s = .next s₁ →
      s₂.txlog = s.txlog ++ frame 0x52#8 a l [] 0x0000#16 ∧ p = []) ∧
    (exec (.txBuild c a l n k) s = .next s₁ →
      s₂.txlog = s.txlog ++ frame (if c = .write then 0x57#8 else 0x52#8) a l p k ∧ p.length = n.toNat)

/-- 11 + P TX line steps and P payload transfers carry out the frame of an accepted TX op: TXPH is IDLE again, every
byte offered is taken, and nothing changes but the serializer and TXLOG (R131 and R243, inferences that the spec marks
as its own). -/
def Obligations.FrameCompletesInItsStepCount : Prop :=
  ∀ (s s₁ : State) (a : Addr) (l n k : Half) (c : FrameCmd) (i : Instr) (p : List Byte),
    s.tx.ph = .idle → a ≤ s.addrLimit → exec i s = .next s₁ →
    (i = .txWrite a l ∧ p.length = l.toNat) ∨ (i = .txRead a l ∧ p = []) ∨
      (i = .txBuild c a l n k ∧ p.length = n.toNat) →
    ∃ tx log, txRun (frameMoves p) s₁ = ({ s with tx := tx, txlog := s.txlog ++ log }, p) ∧ tx.ph = .idle ∧
      log.length = 11 + p.length

/-! ## Reception -/

/-- The hunt: HUNT0 and HUNT1 write RXPH and nothing else (R152, R153). -/
def Obligations.HuntLooksForTheSyncMarker : Prop :=
  ∀ (b : Byte) (s : State),
    (s.rx.ph = .hunt0 →
      s.rxLineStep b = { s with rx := { s.rx with ph := if b = 0xAA#8 then .hunt1 else .hunt0 } }) ∧
    (s.rx.ph = .hunt1 →
      s.rxLineStep b = { s with rx := { s.rx with
        ph := if b = 0x55#8 then .cmd else if b = 0xAA#8 then .hunt1 else .hunt0 } })

/-- The CMD phase: 0x57 and 0x52 start a frame and clear its registers; any other byte posts BADCMD, sets E_RXCMD and is
looked at again as a possible 0xAA (R154). -/
def Obligations.CommandByteStartsAFrameOrIsBad : Prop :=
  ∀ (b : Byte) (s : State), s.rx.ph = .cmd →
    if b = 0x57#8 ∨ b = 0x52#8 then
      s.rxLineStep b = { s with rx := { s.rx with
        cmd := b, addr := 0x00000000#32, len := 0x0000#16, idx := 0x0000#16, acc := 0x0000#16, ph := .a0 } }
    else
      s.rxLineStep b = { s with
        rx := { s.rx with ph := if b = 0xAA#8 then .hunt1 else .hunt0 }
        evlog := s.evlog ++ [eventWord (.badCmd b)]
        err := { s.err with eRxcmd := true } }

/-- The four address phases, each with its own shift, and the address they assemble, exactly as sent (R155). -/
def Obligations.AddressBytesAssembleLittleEndian : Prop :=
  (∀ (b : Byte) (s : State),
    (s.rx.ph = .a0 → s.rxLineStep b = { s with rx := { s.rx with addr := s.rx.addr ||| b.setWidth 32, ph := .a1 } }) ∧
    (s.rx.ph = .a1 →
      s.rxLineStep b = { s with rx := { s.rx with addr := s.rx.addr ||| (b.setWidth 32 <<< 8), ph := .a2 } }) ∧
    (s.rx.ph = .a2 →
      s.rxLineStep b = { s with rx := { s.rx with addr := s.rx.addr ||| (b.setWidth 32 <<< 16), ph := .a3 } }) ∧
    (s.rx.ph = .a3 →
      s.rxLineStep b = { s with rx := { s.rx with addr := s.rx.addr ||| (b.setWidth 32 <<< 24), ph := .l0 } })) ∧
  (∀ (a : Addr) (s : State), s.rx.ph = .a0 → s.rx.addr = 0x00000000#32 →
    deliverAll (le32 a) s = { s with rx := { s.rx with addr := a, ph := .l0 } })

/-- The two length phases: the length field is assembled, the payload count is set from it for WRITE and is 0 for READ,
and the header is posted before any payload byte is known (R156). -/
def Obligations.LengthBytesPostTheHeader : Prop :=
  (∀ (b : Byte) (s : State), s.rx.ph = .l0 →
    s.rxLineStep b = { s with rx := { s.rx with len := b.setWidth 16, ph := .l1 } }) ∧
  (∀ (b : Byte) (s : State), s.rx.ph = .l1 →
    let len := s.rx.len ||| (b.setWidth 16 <<< 8)
    let pcnt := if s.rx.cmd = 0x57#8 then len else 0x0000#16
    s.rxLineStep b = { s with
      rx := { s.rx with len := len, pcnt := pcnt, ph := if pcnt = 0x0000#16 then .k0 else .pay }
      evlog := s.evlog ++ [eventWord (.hdr s.rx.cmd s.rx.addr len)] }) ∧
  (∀ (l : Half) (s : State), s.rx.ph = .l0 → (deliverAll (le16 l) s).rx.len = l)

/-- The PAY phase: the byte is posted with its index, summed and counted, and the last one leads to K0 (R157). -/
def Obligations.PayloadByteIsPostedAndSummed : Prop :=
  ∀ (b : Byte) (s : State), s.rx.ph = .pay →
    s.rxLineStep b = { s with
      rx := { s.rx with
        acc := BitVec.ofNat 16 ((s.rx.acc.toNat + b.toNat) % 65536)
        idx := s.rx.idx + 1#16
        ph := if s.rx.idx + 1#16 = s.rx.pcnt then .k0 else .pay }
      evlog := s.evlog ++ [eventWord (.pay b s.rx.idx)] }

/-- The trailer: K0 keeps the low byte, K1 compares the checksum received with RXACC, posts END and sets E_RXCK
exactly on a mismatch, and the deframer hunts again; so a READ frame passes only with a checksum field of 0x0000
(R158, R159). -/
def Obligations.ChecksumIsComparedAtTheEnd : Prop :=
  (∀ (b : Byte) (s : State), s.rx.ph = .k0 →
    s.rxLineStep b = { s with rx := { s.rx with ckl := b, ph := .k1 } }) ∧
  (∀ (b : Byte) (s : State), s.rx.ph = .k1 →
    let ckrx : Half := s.rx.ckl.setWidth 16 ||| (b.setWidth 16 <<< 8)
    s.rxLineStep b = { s with
      rx := { s.rx with ph := .hunt0 }
      evlog := s.evlog ++ [eventWord (.endFrame (decide (ckrx = s.rx.acc)) ckrx s.rx.acc)]
      err := if ckrx = s.rx.acc then s.err else { s.err with eRxck := true } }) ∧
  (∀ (s : State) (a : Addr) (l k : Half), s.rx.ph = .hunt0 ∨ s.rx.ph = .hunt1 →
    (deliverAll (frame 0x52#8 a l [] k) s).err = if k = 0x0000#16 then s.err else { s.err with eRxck := true })

/-- The round trip (R164, an inference that the spec marks as its own): a whole frame delivered to a hunting deframer
posts exactly HDR, its PAY events and END, ends in HUNT0, writes E_RXCK exactly when the checksum field is wrong and
E_RXCMD never. The frame that an accepted TX_WRITE or TX_READ emits is such a frame, and is received with OK = 1. -/
def Obligations.FrameRoundTrip : Prop :=
  (∀ (s : State) (c : Byte) (a : Addr) (l k : Half) (p : List Byte),
    (c = 0x57#8 ∧ p.length = l.toNat) ∨ (c = 0x52#8 ∧ p = []) → s.rx.ph = .hunt0 ∨ s.rx.ph = .hunt1 →
    ∃ rx, rx.ph = .hunt0 ∧
      deliverAll (frame c a l p k) s = { s with
        rx := rx
        evlog := s.evlog ++ (frameEvents c a l p k).map eventWord
        err := if k = checksum p then s.err else { s.err with eRxck := true } }) ∧
  (∀ (s s₁ r : State) (a : Addr) (l : Half) (i : Instr) (moves : List TxMove),
    i = .txWrite a l ∨ i = .txRead a l → s.tx.ph = .idle → a ≤ s.addrLimit → exec i s = .next s₁ →
    (txRun moves s₁).1.tx.ph = .idle → r.rx.ph = .hunt0 ∨ r.rx.ph = .hunt1 →
    ∃ (sent : List Byte) (rx : Rx), (txRun moves s₁).1.txlog = s.txlog ++ sent ∧ rx.ph = .hunt0 ∧
      deliverAll sent r = { r with
        rx := rx
        evlog := r.evlog ++
          ([Event.hdr (if i = Instr.txWrite a l then 0x57#8 else 0x52#8) a l] ++
            ((txRun moves s₁).2.zipIdx.map fun x : Byte × Nat => Event.pay x.1 (BitVec.ofNat 16 x.2)) ++
            [Event.endFrame true (checksum (txRun moves s₁).2) (checksum (txRun moves s₁).2)]).map eventWord })

/-- The deframer leaves the hunt exactly when 0x55 is delivered in HUNT1, and reaches CMD: from HUNT0, bytes without the
pair 0xAA 0x55 leave it hunting and change only RXPH, and the first such pair brings it to CMD. The byte after a whole
frame is looked at in HUNT0 (R160, an inference that the spec marks as its own). -/
def Obligations.HuntEndsExactlyAtTheMarker : Prop :=
  (∀ (b : Byte) (s : State), s.rx.ph.hunts = true →
    ((s.rxLineStep b).rx.ph.hunts = false ↔ s.rx.ph = .hunt1 ∧ b = 0x55#8) ∧
    ((s.rxLineStep b).rx.ph.hunts = false → (s.rxLineStep b).rx.ph = .cmd)) ∧
  (∀ (bs : List Byte) (s : State), s.rx.ph = .hunt0 → ¬ [0xAA#8, 0x55#8] <:+: bs →
    deliverAll bs s =
      { s with rx := { s.rx with ph := if bs.getLast? = some 0xAA#8 then .hunt1 else .hunt0 } }) ∧
  (∀ (bs : List Byte) (s : State), s.rx.ph = .hunt0 → ¬ [0xAA#8, 0x55#8] <:+: (bs ++ [0xAA#8]) →
    deliverAll (bs ++ [0xAA#8, 0x55#8]) s = { s with rx := { s.rx with ph := .cmd } }) ∧
  (∀ (b : Byte) (s : State), s.rx.ph = .k1 → (s.rxLineStep b).rx.ph = .hunt0)

/-- Inside a frame every byte is data: in PAY the deframer takes the rest of the payload and the two checksum bytes,
whatever they are, before it hunts again, and only the end of the frame, RX_RESET or reset takes it there (R162).
Turns are the model's own (notes/assumptions/1.md). -/
def Obligations.FrameBytesAreNeverAMarker : Prop :=
  (∀ (bs : List Byte) (s : State), s.rx.ph = .pay → s.rx.idx < s.rx.pcnt →
    bs.length ≤ s.rx.pcnt.toNat - s.rx.idx.toNat + 2 →
    (deliverAll bs s).rx.ph =
      if bs.length < s.rx.pcnt.toNat - s.rx.idx.toNat then .pay
      else if bs.length = s.rx.pcnt.toNat - s.rx.idx.toNat then .k0
      else if bs.length = s.rx.pcnt.toNat - s.rx.idx.toNat + 1 then .k1 else .hunt0) ∧
  (∀ s t : State, step s = .next t → s.rx.ph.inHeader = true ∨ s.rx.ph.pastHeader = true → t.rx.ph.hunts = true →
    (s.rx.ph = .k1 ∧ ∃ b rest, s.sched = .rxLine b :: rest) ∨ (∃ rest, s.sched = .resetInput :: rest) ∨
      ∃ u, s.nextMove = .command .rxReset u)

/-- ASCII text delivered to a hunting deframer leaves it in HUNT0, with nothing posted and no other change (R166, an
inference that the spec marks as its own), but for one case that R153 decides against R166's own words
(notes/assumptions/12.md): text that begins with 0x55 right after a 0xAA completes a sync marker. -/
def Obligations.AsciiTextNeverEndsTheHunt : Prop :=
  (∀ (bs : List Byte) (s : State), bs ≠ [] → (∀ b ∈ bs, b.toNat < 0x80) →
    s.rx.ph = .hunt0 ∨ (s.rx.ph = .hunt1 ∧ bs.head? ≠ some 0x55#8) →
    deliverAll bs s = { s with rx := { s.rx with ph := .hunt0 } }) ∧
  (∀ s : State, s.rx.ph = .hunt1 → s.rxLineStep 0x55#8 = { s with rx := { s.rx with ph := .cmd } })

/-- An RX line step raises at most one error: RxBadCommand only in CMD and RxChecksumMismatch only in K1, and neither of
the other two ever (R204, an inference that the spec marks as its own). -/
def Obligations.RxStepRaisesAtMostOneError : Prop :=
  ∀ (b : Byte) (s : State),
    (s.rxLineStep b).err = s.err ∨
    (s.rx.ph = .cmd ∧ (s.rxLineStep b).err = { s.err with eRxcmd := true }) ∨
    (s.rx.ph = .k1 ∧ (s.rxLineStep b).err = { s.err with eRxck := true })

/-- RX_RESET (R163): OP 0x6, accepted at every step; RXPH <- HUNT0 and nothing else. The stale values of the other RX
registers are never observed: whatever they hold, the bytes that follow post the same events and raise the same
errors. -/
def Obligations.RxResetReturnsToTheHunt : Prop :=
  (∀ w, opField w = 0x6#4 → decode w = .rxReset) ∧ encode .rxReset = 0x000000000000000000000006#96 ∧
    (∀ s : State, s.accepts .rxReset = true ∧ exec .rxReset s = .next { s with rx := { s.rx with ph := .hunt0 } }) ∧
    ∀ (bs : List Byte) (s : State) (r : Rx), s.rx.ph = .hunt0 → r.ph = .hunt0 →
      let t := deliverAll bs s
      let u := deliverAll bs { s with rx := r }
      t.evlog = u.evlog ∧ t.err = u.err ∧ t.rx.ph = u.rx.ph

/-! ## Control and STATUS -/

/-- NOP (R180): OP 0x0 whatever the other bits, accepted at every step; no state changes. -/
def Obligations.NopChangesNothing : Prop :=
  (∀ w, opField w = 0x0#4 → decode w = .nop) ∧ encode .nop = 0x000000000000000000000000#96 ∧
    ∀ s : State, s.accepts .nop = true ∧ exec .nop s = .next s

/-- CLR_STATUS (R181): OP 0x7, accepted at every step; the four sticky bits <- 0 and nothing else, so the live bits of
STATUS stay. -/
def Obligations.ClrStatusClearsTheStickyBits : Prop :=
  (∀ w, opField w = 0x7#4 → decode w = .clrStatus) ∧ encode .clrStatus = 0x000000000000000000000007#96 ∧
    ∀ s : State, s.accepts .clrStatus = true ∧
      ∃ t, exec .clrStatus s = .next t ∧
        t = { s with err := { eAddr := false, eIllop := false, eRxck := false, eRxcmd := false } } ∧
        t.status = s.status &&& 0x0700#16

/-- A reserved op (R182): OP 0x8 to 0xF whatever the other bits, accepted at every step, a frame in progress or not;
E_ILLOP <- 1 and nothing else. -/
def Obligations.ReservedOpOnlySetsIllop : Prop :=
  (∀ w, 0x8#4 ≤ opField w → decode w = .reserved (opField w)) ∧
    ∀ (op : BitVec 4) (s : State), s.accepts (.reserved op) = true ∧
      exec (.reserved op) s = .next { s with err := { s.err with eIllop := true } }

/-- STATUS bit by bit: the sticky bits, the live bits computed from TXPH, RXPH and PBV, and the bits that read 0
(R29). -/
def Obligations.StatusReadsItsBits : Prop :=
  ∀ s : State,
    s.status.getLsbD 0 = s.err.eAddr ∧ s.status.getLsbD 1 = s.err.eIllop ∧ s.status.getLsbD 2 = s.err.eRxck ∧
    s.status.getLsbD 3 = s.err.eRxcmd ∧ (∀ i, 4 ≤ i → i ≤ 7 → s.status.getLsbD i = false) ∧
    (s.status.getLsbD 8 = true ↔ s.tx.ph ≠ .idle) ∧
    (s.status.getLsbD 9 = true ↔ s.rx.ph ≠ .hunt0 ∧ s.rx.ph ≠ .hunt1) ∧
    (s.status.getLsbD 10 = true ↔ s.tx.ph = .pay ∧ s.tx.pbv = false) ∧
    (∀ i, 11 ≤ i → s.status.getLsbD i = false) ∧ State.reset.status = 0x0000#16

/-- `raise` sets the STATUS bit whose number is the error's code and no other, again and again the same, and changes
nothing but the sticky bits (R200, R201). -/
def Obligations.RaiseSetsTheBitOfItsCode : Prop :=
  ∀ (e : CodecError) (s : State),
    (s.raise e).status = s.status ||| (1#16 <<< e.code) ∧ (s.raise e).raise e = s.raise e ∧
      ∃ k, s.raise e = { s with err := k }

/-- A thread's read of STATUS or CK_ACC returns the value of the state before the step and changes no state of the
block, whose reading the thread keeps in `reads`, the model's own field (R30, R31; notes/assumptions/3.md). -/
def Obligations.PortReadsReturnAndChangeNothing : Prop :=
  ∀ (s : State) (k : Nat) (turns : List Turn) (rest : List HostAction) (reads : List Reading), s.sched = .host k :: turns →
    (s.threads[k]? = some { prog := .rdStat :: rest, reads := reads } →
      step s = .next { s with
        threads := s.threads.set k { prog := rest, reads := reads ++ [.status s.status] }, sched := turns }) ∧
    (s.threads[k]? = some { prog := .rdAcc :: rest, reads := reads } →
      step s = .next { s with
        threads := s.threads.set k { prog := rest, reads := reads ++ [.ckAcc s.hacc] }, sched := turns })

/-- A thread's take of an event removes the word at the head of EVLOG and returns it; on an empty EVLOG it holds the
thread (R33). That a held turn is used up is the model's choice (notes/assumptions/2.md). -/
def Obligations.TakeRemovesTheHeadEvent : Prop :=
  ∀ (s : State) (k : Nat) (turns : List Turn) (rest : List HostAction) (reads : List Reading), s.sched = .host k :: turns →
    s.threads[k]? = some { prog := .takeEv :: rest, reads := reads } →
    (∀ w ws, s.evlog = w :: ws →
      step s = .next { s with
        evlog := ws, threads := s.threads.set k { prog := rest, reads := reads ++ [.event w] }, sched := turns }) ∧
    (s.evlog = [] → step s = .next { s with sched := turns })

/-- A sticky bit goes from 1 to 0 only by CLR_STATUS or reset, and from 0 to 1 only by the rule R34 names for it.
Turns are the model's own (notes/assumptions/1.md). -/
def Obligations.StickyBitsHaveOneWriterEach : Prop :=
  ∀ s t : State, step s = .next t → (∀ rest, s.sched ≠ .resetInput :: rest) → (∀ u, s.nextMove ≠ .command .clrStatus u) →
    (s.err.eAddr = true → t.err.eAddr = true) ∧ (s.err.eIllop = true → t.err.eIllop = true) ∧
    (s.err.eRxck = true → t.err.eRxck = true) ∧ (s.err.eRxcmd = true → t.err.eRxcmd = true) ∧
    (t.err.eAddr ≠ s.err.eAddr → s.tx.ph = .idle ∧ ∃ (a : Addr) (i : Instr) (u : State), s.nextMove = .command i u ∧
      a.toNat > s.addrLimit.toNat ∧ ((∃ l, i = .txWrite a l) ∨ (∃ l, i = .txRead a l) ∨ ∃ c l n k, i = .txBuild c a l n k)) ∧
    (t.err.eIllop ≠ s.err.eIllop → ∃ op u, s.nextMove = .command (.reserved op) u) ∧
    (t.err.eRxck ≠ s.err.eRxck → s.rx.ph = .k1 ∧ ∃ b rest, s.sched = .rxLine b :: rest) ∧
    (t.err.eRxcmd ≠ s.err.eRxcmd → s.rx.ph = .cmd ∧ ∃ b rest, s.sched = .rxLine b :: rest)

/-- No rule reads a sticky bit but the STATUS read: two states that differ only in their sticky bits take steps to
states that differ only there, unless the step reads STATUS (R34). Turns are the model's own (notes/assumptions/1.md).
-/
def Obligations.StickyBitsSteerNothingElse : Prop :=
  ∀ (s : State) (e : Sticky),
    (∀ k turns t, s.sched = .host k :: turns → s.threads[k]? = some t → t.prog.head? ≠ some .rdStat) →
    ∃ t t', step s = .next t ∧ step { s with err := e } = .next t' ∧ t.sansErr = t'.sansErr

/-! ## Reset -/

/-- The state after reset holds the reset value of every row of R20, STATUS reads 0x0000 (R20, R230), and ADDR_LIMIT has
its default, 0xFFFF (R6); with any other ADDR_LIMIT the state after reset is the same but for that. -/
def Obligations.ResetValuesOfEveryElement : Prop :=
  let s := State.reset
  s.hacc = 0x0000#16 ∧ s.tx.ph = .idle ∧ s.tx.cmd = 0x00#8 ∧ s.tx.addr = 0x00000000#32 ∧ s.tx.len = 0x0000#16 ∧
  s.tx.pcnt = 0x0000#16 ∧ s.tx.idx = 0x0000#16 ∧ s.tx.ckm = .acc ∧ s.tx.ckv = 0x0000#16 ∧ s.tx.acc = 0x0000#16 ∧
  s.tx.pbuf = 0x00#8 ∧ s.tx.pbv = false ∧ s.rx.ph = .hunt0 ∧ s.rx.cmd = 0x00#8 ∧ s.rx.addr = 0x00000000#32 ∧
  s.rx.len = 0x0000#16 ∧ s.rx.pcnt = 0x0000#16 ∧ s.rx.idx = 0x0000#16 ∧ s.rx.acc = 0x0000#16 ∧ s.rx.ckl = 0x00#8 ∧
  s.err.eAddr = false ∧ s.err.eIllop = false ∧ s.err.eRxck = false ∧ s.err.eRxcmd = false ∧ s.evlog = [] ∧ s.txlog = [] ∧
  s.status = 0x0000#16 ∧ s.addrLimit = 0x0000FFFF#32 ∧
  ∀ limit : Addr, State.resetWith limit = { s with addrLimit := limit }

/-- The reset input at a later step gives the block its reset values, discards EVLOG and leaves the host threads where
they are. That TXLOG keeps what the TX line has taken is the model's reading of R231 against R230 (DEDUCED,
notes/assumptions/4.md). -/
def Obligations.ResetInputAbandonsBothFrames : Prop :=
  ∀ (s : State) (turns : List Turn), s.sched = .resetInput :: turns →
    step s = .next { State.resetWith s.addrLimit with txlog := s.txlog, threads := s.threads, sched := turns }

/-! ## The machine -/

/-- A step runs the decoded instruction: when the thread whose turn it is issues w, the step is exec of what w decodes
to, at the state without that turn, in which the thread has gone past the word exactly if the word is accepted. The
fields `threads` and `sched` are the model's own (notes/assumptions/1.md). -/
def Obligations.StepRunsTheDecodedWord : Prop :=
  (∀ (s : State) (k : Nat) (turns : List Turn) (w : CmdWord) (rest : List HostAction) (reads : List Reading),
    s.sched = .host k :: turns → s.threads[k]? = some { prog := .issue w :: rest, reads := reads } →
    step s = exec (decode w)
      (if s.accepts (decode w) then
        { s with threads := s.threads.set k { prog := rest, reads := reads }, sched := turns }
      else { s with sched := turns })) ∧
  (∀ (s : State) (i : Instr) (threads : List HostThread) (turns : List Turn), s.accepts i = false →
    exec i { s with threads := threads, sched := turns } = .next { s with threads := threads, sched := turns })

/-- No step stops the machine: the block has no trap, and an error stops neither direction (R201, R207). With no turn
due the model idles (notes/assumptions/2.md). -/
def Obligations.EveryStepHasANextState : Prop :=
  ∀ s : State, ∃ t, step s = .next t

/-- The registers' invariant is kept by every step of every agent, from every state that meets it (R28, R82, R122,
R127, R129, R154 to R159). -/
def Obligations.RegisterInvariantKept : Prop :=
  ∀ s t : State, s.Inv → step s = .next t → t.Inv

/-- The registers' invariant holds after reset, whatever ADDR_LIMIT is (R6). -/
def Obligations.RegisterInvariantAtReset : Prop :=
  State.reset.Inv ∧ ∀ limit : Addr, (State.resetWith limit).Inv

/-- What the TX line has taken of the frame in progress is the beginning of that frame, at every step of every agent in
any order (R60 and R131, inferences that the spec marks as its own). -/
def Obligations.FramePrefixInvariantKept : Prop :=
  ∀ s t : State, s.Inv → s.FrameInv → step s = .next t → t.FrameInv

/-- The frame-prefix invariant holds after reset, whatever ADDR_LIMIT is (R6). -/
def Obligations.FramePrefixInvariantAtReset : Prop :=
  State.reset.FrameInv ∧ ∀ limit : Addr, (State.resetWith limit).FrameInv

/-- From the two invariants, the TX line's step at K1 completes the frame: TXLOG then ends with a whole frame of the
latched fields, whose payload has as many bytes as the op asked for, and TXPH is IDLE (R131, an inference that the spec
marks as its own). -/
def Obligations.LastByteCompletesTheFrame : Prop :=
  ∀ s : State, s.Inv → s.FrameInv → s.tx.ph = .k1 →
    s.txLineStep.tx.ph = .idle ∧
    ∃ earlier p, p.length = s.tx.pcnt.toNat ∧
      s.txLineStep.txlog = earlier ++
        frame s.tx.cmd s.tx.addr s.tx.len p (if s.tx.ckm = .acc then checksum p else s.tx.ckv)

/-- The directions are independent (R61, an inference that the spec marks as its own): an RX line step commutes with a
TX line step, with a payload transfer and with every op but RX_RESET and CLR_STATUS, so either order gives the same
state. -/
def Obligations.TxAndRxStepsCommute : Prop :=
  ∀ (b d : Byte) (s : State),
    (s.txLineStep).rxLineStep b = (s.rxLineStep b).txLineStep ∧
    (s.putByte d).rxLineStep b = (s.rxLineStep b).putByte d ∧
    (∀ (i : Instr) (t : State), i ≠ .rxReset → i ≠ .clrStatus → exec i s = .next t →
      exec i (s.rxLineStep b) = .next (t.rxLineStep b))

/-- A program that holds for ever (R235, an inference that the spec marks as its own): with a frame waiting for a
payload byte and every thread finished or held on a TX op, no turn of a host thread or of the TX line changes anything
but `sched`, which it leaves (notes/assumptions/2.md), however many of them come. -/
def Obligations.HeldThreadsHoldForEver : Prop :=
  ∀ (n : Nat) (s : State), s.tx.ph = .pay → s.tx.pbv = false → (∀ t ∈ s.threads, t.blocked) →
    (∀ turn ∈ s.sched, turn = .txLine ∨ ∃ k, turn = .host k) →
    Sys2Proof.core.run n s = .next { s with sched := s.sched.drop n }

/-- TXLOG only grows, and by at most one byte a step: the byte presented, in a step of the TX line (R32, R54). Turns
are the model's own (notes/assumptions/1.md), and that the reset input keeps TXLOG is its reading of R231 (DEDUCED,
notes/assumptions/4.md). -/
def Obligations.TxlogGrowsByThePresentedByte : Prop :=
  ∀ s t : State, step s = .next t →
    t.txlog = s.txlog ∨ ∃ b rest, s.sched = .txLine :: rest ∧ txPresented s.tx = some b ∧ t.txlog = s.txlog ++ [b]

/-- EVLOG is a queue: a step leaves it, appends one event's word (an RX line step), removes the head (a host thread's
take) or, on reset, empties it (R33; the order is R61, an inference that the spec marks as its own). Turns are the
model's own (notes/assumptions/1.md). -/
def Obligations.EvlogIsAQueue : Prop :=
  ∀ s t : State, step s = .next t →
    t.evlog = s.evlog ∨
    (∃ b rest e, s.sched = .rxLine b :: rest ∧ t.evlog = s.evlog ++ [eventWord e]) ∨
    (∃ k turns w th rest, s.sched = .host k :: turns ∧ s.threads[k]? = some th ∧ th.prog = .takeEv :: rest ∧
      s.evlog = w :: t.evlog) ∨
    (∃ rest, s.sched = .resetInput :: rest ∧ t.evlog = [])

/-- ADDR_LIMIT is a parameter (R6): its default is 0xFFFF, any value may be given, no step of any agent writes it, the
reset input's included, and nothing but the address check of a TX op reads it: any other step is the same whatever it
is. That the parameter stands in State is the model's choice (notes/assumptions/6.md). -/
def Obligations.AddrLimitIsAParameter : Prop :=
  State.reset.addrLimit = 0x0000FFFF#32 ∧ (∀ limit : Addr, (State.resetWith limit).addrLimit = limit) ∧
  (∀ s t : State, step s = .next t → t.addrLimit = s.addrLimit) ∧
  (∀ (s t : State) (limit : Addr), step s = .next t → (∀ i u, s.nextMove = .command i u → isTxOp i = false) →
    step { s with addrLimit := limit } = .next { t with addrLimit := limit })
end

