-- ==== Sys2Proof/Laws/State.lean ====
section
/-! SUPPORT. One lemma per field per update, each true by rfl, so that no proof unfolds a record update. -/

namespace Sys2Proof.Machine

/-! ### withHacc -/

@[simp] theorem State.withHacc_hacc (s : State) (v : Half) :
    (s.withHacc v).hacc = v := rfl
@[simp] theorem State.withHacc_tx (s : State) (v : Half) :
    (s.withHacc v).tx = s.tx := rfl
@[simp] theorem State.withHacc_rx (s : State) (v : Half) :
    (s.withHacc v).rx = s.rx := rfl
@[simp] theorem State.withHacc_err (s : State) (v : Half) :
    (s.withHacc v).err = s.err := rfl
@[simp] theorem State.withHacc_evlog (s : State) (v : Half) :
    (s.withHacc v).evlog = s.evlog := rfl
@[simp] theorem State.withHacc_txlog (s : State) (v : Half) :
    (s.withHacc v).txlog = s.txlog := rfl
@[simp] theorem State.withHacc_threads (s : State) (v : Half) :
    (s.withHacc v).threads = s.threads := rfl
@[simp] theorem State.withHacc_sched (s : State) (v : Half) :
    (s.withHacc v).sched = s.sched := rfl
@[simp] theorem State.withHacc_addrLimit (s : State) (v : Half) :
    (s.withHacc v).addrLimit = s.addrLimit := rfl

/-! ### withTx -/

@[simp] theorem State.withTx_hacc (s : State) (v : Tx) :
    (s.withTx v).hacc = s.hacc := rfl
@[simp] theorem State.withTx_tx (s : State) (v : Tx) :
    (s.withTx v).tx = v := rfl
@[simp] theorem State.withTx_rx (s : State) (v : Tx) :
    (s.withTx v).rx = s.rx := rfl
@[simp] theorem State.withTx_err (s : State) (v : Tx) :
    (s.withTx v).err = s.err := rfl
@[simp] theorem State.withTx_evlog (s : State) (v : Tx) :
    (s.withTx v).evlog = s.evlog := rfl
@[simp] theorem State.withTx_txlog (s : State) (v : Tx) :
    (s.withTx v).txlog = s.txlog := rfl
@[simp] theorem State.withTx_threads (s : State) (v : Tx) :
    (s.withTx v).threads = s.threads := rfl
@[simp] theorem State.withTx_sched (s : State) (v : Tx) :
    (s.withTx v).sched = s.sched := rfl
@[simp] theorem State.withTx_addrLimit (s : State) (v : Tx) :
    (s.withTx v).addrLimit = s.addrLimit := rfl

/-! ### withRx -/

@[simp] theorem State.withRx_hacc (s : State) (v : Rx) :
    (s.withRx v).hacc = s.hacc := rfl
@[simp] theorem State.withRx_tx (s : State) (v : Rx) :
    (s.withRx v).tx = s.tx := rfl
@[simp] theorem State.withRx_rx (s : State) (v : Rx) :
    (s.withRx v).rx = v := rfl
@[simp] theorem State.withRx_err (s : State) (v : Rx) :
    (s.withRx v).err = s.err := rfl
@[simp] theorem State.withRx_evlog (s : State) (v : Rx) :
    (s.withRx v).evlog = s.evlog := rfl
@[simp] theorem State.withRx_txlog (s : State) (v : Rx) :
    (s.withRx v).txlog = s.txlog := rfl
@[simp] theorem State.withRx_threads (s : State) (v : Rx) :
    (s.withRx v).threads = s.threads := rfl
@[simp] theorem State.withRx_sched (s : State) (v : Rx) :
    (s.withRx v).sched = s.sched := rfl
@[simp] theorem State.withRx_addrLimit (s : State) (v : Rx) :
    (s.withRx v).addrLimit = s.addrLimit := rfl

/-! ### withErr -/

@[simp] theorem State.withErr_hacc (s : State) (v : Sticky) :
    (s.withErr v).hacc = s.hacc := rfl
@[simp] theorem State.withErr_tx (s : State) (v : Sticky) :
    (s.withErr v).tx = s.tx := rfl
@[simp] theorem State.withErr_rx (s : State) (v : Sticky) :
    (s.withErr v).rx = s.rx := rfl
@[simp] theorem State.withErr_err (s : State) (v : Sticky) :
    (s.withErr v).err = v := rfl
@[simp] theorem State.withErr_evlog (s : State) (v : Sticky) :
    (s.withErr v).evlog = s.evlog := rfl
@[simp] theorem State.withErr_txlog (s : State) (v : Sticky) :
    (s.withErr v).txlog = s.txlog := rfl
@[simp] theorem State.withErr_threads (s : State) (v : Sticky) :
    (s.withErr v).threads = s.threads := rfl
@[simp] theorem State.withErr_sched (s : State) (v : Sticky) :
    (s.withErr v).sched = s.sched := rfl
@[simp] theorem State.withErr_addrLimit (s : State) (v : Sticky) :
    (s.withErr v).addrLimit = s.addrLimit := rfl

/-! ### withEvlog -/

@[simp] theorem State.withEvlog_hacc (s : State) (v : List EventWord) :
    (s.withEvlog v).hacc = s.hacc := rfl
@[simp] theorem State.withEvlog_tx (s : State) (v : List EventWord) :
    (s.withEvlog v).tx = s.tx := rfl
@[simp] theorem State.withEvlog_rx (s : State) (v : List EventWord) :
    (s.withEvlog v).rx = s.rx := rfl
@[simp] theorem State.withEvlog_err (s : State) (v : List EventWord) :
    (s.withEvlog v).err = s.err := rfl
@[simp] theorem State.withEvlog_evlog (s : State) (v : List EventWord) :
    (s.withEvlog v).evlog = v := rfl
@[simp] theorem State.withEvlog_txlog (s : State) (v : List EventWord) :
    (s.withEvlog v).txlog = s.txlog := rfl
@[simp] theorem State.withEvlog_threads (s : State) (v : List EventWord) :
    (s.withEvlog v).threads = s.threads := rfl
@[simp] theorem State.withEvlog_sched (s : State) (v : List EventWord) :
    (s.withEvlog v).sched = s.sched := rfl
@[simp] theorem State.withEvlog_addrLimit (s : State) (v : List EventWord) :
    (s.withEvlog v).addrLimit = s.addrLimit := rfl

/-! ### withTxlog -/

@[simp] theorem State.withTxlog_hacc (s : State) (v : List Byte) :
    (s.withTxlog v).hacc = s.hacc := rfl
@[simp] theorem State.withTxlog_tx (s : State) (v : List Byte) :
    (s.withTxlog v).tx = s.tx := rfl
@[simp] theorem State.withTxlog_rx (s : State) (v : List Byte) :
    (s.withTxlog v).rx = s.rx := rfl
@[simp] theorem State.withTxlog_err (s : State) (v : List Byte) :
    (s.withTxlog v).err = s.err := rfl
@[simp] theorem State.withTxlog_evlog (s : State) (v : List Byte) :
    (s.withTxlog v).evlog = s.evlog := rfl
@[simp] theorem State.withTxlog_txlog (s : State) (v : List Byte) :
    (s.withTxlog v).txlog = v := rfl
@[simp] theorem State.withTxlog_threads (s : State) (v : List Byte) :
    (s.withTxlog v).threads = s.threads := rfl
@[simp] theorem State.withTxlog_sched (s : State) (v : List Byte) :
    (s.withTxlog v).sched = s.sched := rfl
@[simp] theorem State.withTxlog_addrLimit (s : State) (v : List Byte) :
    (s.withTxlog v).addrLimit = s.addrLimit := rfl

/-! ### withThreads -/

@[simp] theorem State.withThreads_hacc (s : State) (v : List HostThread) :
    (s.withThreads v).hacc = s.hacc := rfl
@[simp] theorem State.withThreads_tx (s : State) (v : List HostThread) :
    (s.withThreads v).tx = s.tx := rfl
@[simp] theorem State.withThreads_rx (s : State) (v : List HostThread) :
    (s.withThreads v).rx = s.rx := rfl
@[simp] theorem State.withThreads_err (s : State) (v : List HostThread) :
    (s.withThreads v).err = s.err := rfl
@[simp] theorem State.withThreads_evlog (s : State) (v : List HostThread) :
    (s.withThreads v).evlog = s.evlog := rfl
@[simp] theorem State.withThreads_txlog (s : State) (v : List HostThread) :
    (s.withThreads v).txlog = s.txlog := rfl
@[simp] theorem State.withThreads_threads (s : State) (v : List HostThread) :
    (s.withThreads v).threads = v := rfl
@[simp] theorem State.withThreads_sched (s : State) (v : List HostThread) :
    (s.withThreads v).sched = s.sched := rfl
@[simp] theorem State.withThreads_addrLimit (s : State) (v : List HostThread) :
    (s.withThreads v).addrLimit = s.addrLimit := rfl

/-! ### withSched -/

@[simp] theorem State.withSched_hacc (s : State) (v : List Turn) :
    (s.withSched v).hacc = s.hacc := rfl
@[simp] theorem State.withSched_tx (s : State) (v : List Turn) :
    (s.withSched v).tx = s.tx := rfl
@[simp] theorem State.withSched_rx (s : State) (v : List Turn) :
    (s.withSched v).rx = s.rx := rfl
@[simp] theorem State.withSched_err (s : State) (v : List Turn) :
    (s.withSched v).err = s.err := rfl
@[simp] theorem State.withSched_evlog (s : State) (v : List Turn) :
    (s.withSched v).evlog = s.evlog := rfl
@[simp] theorem State.withSched_txlog (s : State) (v : List Turn) :
    (s.withSched v).txlog = s.txlog := rfl
@[simp] theorem State.withSched_threads (s : State) (v : List Turn) :
    (s.withSched v).threads = s.threads := rfl
@[simp] theorem State.withSched_sched (s : State) (v : List Turn) :
    (s.withSched v).sched = v := rfl
@[simp] theorem State.withSched_addrLimit (s : State) (v : List Turn) :
    (s.withSched v).addrLimit = s.addrLimit := rfl

/-! ### raise -/

@[simp] theorem State.raise_hacc (s : State) (e : CodecError) :
    (s.raise e).hacc = s.hacc := rfl
@[simp] theorem State.raise_tx (s : State) (e : CodecError) :
    (s.raise e).tx = s.tx := rfl
@[simp] theorem State.raise_rx (s : State) (e : CodecError) :
    (s.raise e).rx = s.rx := rfl
@[simp] theorem State.raise_err (s : State) (e : CodecError) :
    (s.raise e).err = s.err.mark e := rfl
@[simp] theorem State.raise_evlog (s : State) (e : CodecError) :
    (s.raise e).evlog = s.evlog := rfl
@[simp] theorem State.raise_txlog (s : State) (e : CodecError) :
    (s.raise e).txlog = s.txlog := rfl
@[simp] theorem State.raise_threads (s : State) (e : CodecError) :
    (s.raise e).threads = s.threads := rfl
@[simp] theorem State.raise_sched (s : State) (e : CodecError) :
    (s.raise e).sched = s.sched := rfl
@[simp] theorem State.raise_addrLimit (s : State) (e : CodecError) :
    (s.raise e).addrLimit = s.addrLimit := rfl

/-! ### clearErrors -/

@[simp] theorem State.clearErrors_hacc (s : State) :
    (s.clearErrors).hacc = s.hacc := rfl
@[simp] theorem State.clearErrors_tx (s : State) :
    (s.clearErrors).tx = s.tx := rfl
@[simp] theorem State.clearErrors_rx (s : State) :
    (s.clearErrors).rx = s.rx := rfl
@[simp] theorem State.clearErrors_err (s : State) :
    (s.clearErrors).err = Sticky.clear := rfl
@[simp] theorem State.clearErrors_evlog (s : State) :
    (s.clearErrors).evlog = s.evlog := rfl
@[simp] theorem State.clearErrors_txlog (s : State) :
    (s.clearErrors).txlog = s.txlog := rfl
@[simp] theorem State.clearErrors_threads (s : State) :
    (s.clearErrors).threads = s.threads := rfl
@[simp] theorem State.clearErrors_sched (s : State) :
    (s.clearErrors).sched = s.sched := rfl
@[simp] theorem State.clearErrors_addrLimit (s : State) :
    (s.clearErrors).addrLimit = s.addrLimit := rfl

/-! ### post -/

@[simp] theorem State.post_hacc (s : State) (e : Event) :
    (s.post e).hacc = s.hacc := rfl
@[simp] theorem State.post_tx (s : State) (e : Event) :
    (s.post e).tx = s.tx := rfl
@[simp] theorem State.post_rx (s : State) (e : Event) :
    (s.post e).rx = s.rx := rfl
@[simp] theorem State.post_err (s : State) (e : Event) :
    (s.post e).err = s.err := rfl
@[simp] theorem State.post_evlog (s : State) (e : Event) :
    (s.post e).evlog = s.evlog ++ [eventWord e] := rfl
@[simp] theorem State.post_txlog (s : State) (e : Event) :
    (s.post e).txlog = s.txlog := rfl
@[simp] theorem State.post_threads (s : State) (e : Event) :
    (s.post e).threads = s.threads := rfl
@[simp] theorem State.post_sched (s : State) (e : Event) :
    (s.post e).sched = s.sched := rfl
@[simp] theorem State.post_addrLimit (s : State) (e : Event) :
    (s.post e).addrLimit = s.addrLimit := rfl

/-! ### putByte -/

@[simp] theorem State.putByte_hacc (s : State) (b : Byte) :
    (s.putByte b).hacc = s.hacc := rfl
@[simp] theorem State.putByte_tx (s : State) (b : Byte) :
    (s.putByte b).tx = { s.tx with pbuf := b, pbv := true } := rfl
@[simp] theorem State.putByte_rx (s : State) (b : Byte) :
    (s.putByte b).rx = s.rx := rfl
@[simp] theorem State.putByte_err (s : State) (b : Byte) :
    (s.putByte b).err = s.err := rfl
@[simp] theorem State.putByte_evlog (s : State) (b : Byte) :
    (s.putByte b).evlog = s.evlog := rfl
@[simp] theorem State.putByte_txlog (s : State) (b : Byte) :
    (s.putByte b).txlog = s.txlog := rfl
@[simp] theorem State.putByte_threads (s : State) (b : Byte) :
    (s.putByte b).threads = s.threads := rfl
@[simp] theorem State.putByte_sched (s : State) (b : Byte) :
    (s.putByte b).sched = s.sched := rfl
@[simp] theorem State.putByte_addrLimit (s : State) (b : Byte) :
    (s.putByte b).addrLimit = s.addrLimit := rfl

/-! ### setThread -/

@[simp] theorem State.setThread_hacc (s : State) (k : Nat) (t : HostThread) :
    (s.setThread k t).hacc = s.hacc := rfl
@[simp] theorem State.setThread_tx (s : State) (k : Nat) (t : HostThread) :
    (s.setThread k t).tx = s.tx := rfl
@[simp] theorem State.setThread_rx (s : State) (k : Nat) (t : HostThread) :
    (s.setThread k t).rx = s.rx := rfl
@[simp] theorem State.setThread_err (s : State) (k : Nat) (t : HostThread) :
    (s.setThread k t).err = s.err := rfl
@[simp] theorem State.setThread_evlog (s : State) (k : Nat) (t : HostThread) :
    (s.setThread k t).evlog = s.evlog := rfl
@[simp] theorem State.setThread_txlog (s : State) (k : Nat) (t : HostThread) :
    (s.setThread k t).txlog = s.txlog := rfl
@[simp] theorem State.setThread_threads (s : State) (k : Nat) (t : HostThread) :
    (s.setThread k t).threads = s.threads.set k t := rfl
@[simp] theorem State.setThread_sched (s : State) (k : Nat) (t : HostThread) :
    (s.setThread k t).sched = s.sched := rfl
@[simp] theorem State.setThread_addrLimit (s : State) (k : Nat) (t : HostThread) :
    (s.setThread k t).addrLimit = s.addrLimit := rfl

/-! ### retire -/

@[simp] theorem State.retire_hacc (s : State) (k : Nat) (t : HostThread) (rest : List HostAction) :
    (s.retire k t rest).hacc = s.hacc := rfl
@[simp] theorem State.retire_tx (s : State) (k : Nat) (t : HostThread) (rest : List HostAction) :
    (s.retire k t rest).tx = s.tx := rfl
@[simp] theorem State.retire_rx (s : State) (k : Nat) (t : HostThread) (rest : List HostAction) :
    (s.retire k t rest).rx = s.rx := rfl
@[simp] theorem State.retire_err (s : State) (k : Nat) (t : HostThread) (rest : List HostAction) :
    (s.retire k t rest).err = s.err := rfl
@[simp] theorem State.retire_evlog (s : State) (k : Nat) (t : HostThread) (rest : List HostAction) :
    (s.retire k t rest).evlog = s.evlog := rfl
@[simp] theorem State.retire_txlog (s : State) (k : Nat) (t : HostThread) (rest : List HostAction) :
    (s.retire k t rest).txlog = s.txlog := rfl
@[simp] theorem State.retire_threads (s : State) (k : Nat) (t : HostThread) (rest : List HostAction) :
    (s.retire k t rest).threads = s.threads.set k { t with prog := rest } := rfl
@[simp] theorem State.retire_sched (s : State) (k : Nat) (t : HostThread) (rest : List HostAction) :
    (s.retire k t rest).sched = s.sched := rfl
@[simp] theorem State.retire_addrLimit (s : State) (k : Nat) (t : HostThread) (rest : List HostAction) :
    (s.retire k t rest).addrLimit = s.addrLimit := rfl

/-! ### retireRead -/

@[simp] theorem State.retireRead_hacc (s : State) (k : Nat) (t : HostThread) (rest : List HostAction) (r : Reading) :
    (s.retireRead k t rest r).hacc = s.hacc := rfl
@[simp] theorem State.retireRead_tx (s : State) (k : Nat) (t : HostThread) (rest : List HostAction) (r : Reading) :
    (s.retireRead k t rest r).tx = s.tx := rfl
@[simp] theorem State.retireRead_rx (s : State) (k : Nat) (t : HostThread) (rest : List HostAction) (r : Reading) :
    (s.retireRead k t rest r).rx = s.rx := rfl
@[simp] theorem State.retireRead_err (s : State) (k : Nat) (t : HostThread) (rest : List HostAction) (r : Reading) :
    (s.retireRead k t rest r).err = s.err := rfl
@[simp] theorem State.retireRead_evlog (s : State) (k : Nat) (t : HostThread) (rest : List HostAction) (r : Reading) :
    (s.retireRead k t rest r).evlog = s.evlog := rfl
@[simp] theorem State.retireRead_txlog (s : State) (k : Nat) (t : HostThread) (rest : List HostAction) (r : Reading) :
    (s.retireRead k t rest r).txlog = s.txlog := rfl
@[simp] theorem State.retireRead_threads (s : State) (k : Nat) (t : HostThread) (rest : List HostAction) (r : Reading) :
    (s.retireRead k t rest r).threads = s.threads.set k { prog := rest, reads := t.reads ++ [r] } := rfl
@[simp] theorem State.retireRead_sched (s : State) (k : Nat) (t : HostThread) (rest : List HostAction) (r : Reading) :
    (s.retireRead k t rest r).sched = s.sched := rfl
@[simp] theorem State.retireRead_addrLimit (s : State) (k : Nat) (t : HostThread) (rest : List HostAction) (r : Reading) :
    (s.retireRead k t rest r).addrLimit = s.addrLimit := rfl

/-! ### resetBlock -/

@[simp] theorem State.resetBlock_hacc (s : State) :
    (s.resetBlock).hacc = 0#16 := rfl
@[simp] theorem State.resetBlock_tx (s : State) :
    (s.resetBlock).tx = Tx.reset := rfl
@[simp] theorem State.resetBlock_rx (s : State) :
    (s.resetBlock).rx = Rx.reset := rfl
@[simp] theorem State.resetBlock_err (s : State) :
    (s.resetBlock).err = Sticky.clear := rfl
@[simp] theorem State.resetBlock_evlog (s : State) :
    (s.resetBlock).evlog = [] := rfl
@[simp] theorem State.resetBlock_txlog (s : State) :
    (s.resetBlock).txlog = s.txlog := rfl
@[simp] theorem State.resetBlock_threads (s : State) :
    (s.resetBlock).threads = s.threads := rfl
@[simp] theorem State.resetBlock_sched (s : State) :
    (s.resetBlock).sched = s.sched := rfl
@[simp] theorem State.resetBlock_addrLimit (s : State) :
    (s.resetBlock).addrLimit = s.addrLimit := rfl

/-! ### txStart -/

@[simp] theorem txStart_ph (t : Tx) (cmd : Byte) (addr : Addr) (len pcnt : Half) (ckm : CkMode) (ckv : Half) :
    (txStart cmd addr len pcnt ckm ckv t).ph = .s0 := rfl
@[simp] theorem txStart_cmd (t : Tx) (cmd : Byte) (addr : Addr) (len pcnt : Half) (ckm : CkMode) (ckv : Half) :
    (txStart cmd addr len pcnt ckm ckv t).cmd = cmd := rfl
@[simp] theorem txStart_addr (t : Tx) (cmd : Byte) (addr : Addr) (len pcnt : Half) (ckm : CkMode) (ckv : Half) :
    (txStart cmd addr len pcnt ckm ckv t).addr = addr := rfl
@[simp] theorem txStart_len (t : Tx) (cmd : Byte) (addr : Addr) (len pcnt : Half) (ckm : CkMode) (ckv : Half) :
    (txStart cmd addr len pcnt ckm ckv t).len = len := rfl
@[simp] theorem txStart_pcnt (t : Tx) (cmd : Byte) (addr : Addr) (len pcnt : Half) (ckm : CkMode) (ckv : Half) :
    (txStart cmd addr len pcnt ckm ckv t).pcnt = pcnt := rfl
@[simp] theorem txStart_idx (t : Tx) (cmd : Byte) (addr : Addr) (len pcnt : Half) (ckm : CkMode) (ckv : Half) :
    (txStart cmd addr len pcnt ckm ckv t).idx = 0#16 := rfl
@[simp] theorem txStart_ckm (t : Tx) (cmd : Byte) (addr : Addr) (len pcnt : Half) (ckm : CkMode) (ckv : Half) :
    (txStart cmd addr len pcnt ckm ckv t).ckm = ckm := rfl
@[simp] theorem txStart_ckv (t : Tx) (cmd : Byte) (addr : Addr) (len pcnt : Half) (ckm : CkMode) (ckv : Half) :
    (txStart cmd addr len pcnt ckm ckv t).ckv = ckv := rfl
@[simp] theorem txStart_acc (t : Tx) (cmd : Byte) (addr : Addr) (len pcnt : Half) (ckm : CkMode) (ckv : Half) :
    (txStart cmd addr len pcnt ckm ckv t).acc = 0#16 := rfl
@[simp] theorem txStart_pbuf (t : Tx) (cmd : Byte) (addr : Addr) (len pcnt : Half) (ckm : CkMode) (ckv : Half) :
    (txStart cmd addr len pcnt ckm ckv t).pbuf = t.pbuf := rfl
@[simp] theorem txStart_pbv (t : Tx) (cmd : Byte) (addr : Addr) (len pcnt : Half) (ckm : CkMode) (ckv : Half) :
    (txStart cmd addr len pcnt ckm ckv t).pbv = false := rfl

/-! ### txSendPayload -/

@[simp] theorem txSendPayload_ph (t : Tx) :
    (txSendPayload t).ph = if t.idx + 1#16 = t.pcnt then .k0 else .pay := rfl
@[simp] theorem txSendPayload_cmd (t : Tx) :
    (txSendPayload t).cmd = t.cmd := rfl
@[simp] theorem txSendPayload_addr (t : Tx) :
    (txSendPayload t).addr = t.addr := rfl
@[simp] theorem txSendPayload_len (t : Tx) :
    (txSendPayload t).len = t.len := rfl
@[simp] theorem txSendPayload_pcnt (t : Tx) :
    (txSendPayload t).pcnt = t.pcnt := rfl
@[simp] theorem txSendPayload_idx (t : Tx) :
    (txSendPayload t).idx = t.idx + 1#16 := rfl
@[simp] theorem txSendPayload_ckm (t : Tx) :
    (txSendPayload t).ckm = t.ckm := rfl
@[simp] theorem txSendPayload_ckv (t : Tx) :
    (txSendPayload t).ckv = t.ckv := rfl
@[simp] theorem txSendPayload_acc (t : Tx) :
    (txSendPayload t).acc = accAdd t.acc t.pbuf := rfl
@[simp] theorem txSendPayload_pbuf (t : Tx) :
    (txSendPayload t).pbuf = t.pbuf := rfl
@[simp] theorem txSendPayload_pbv (t : Tx) :
    (txSendPayload t).pbv = false := rfl

end Sys2Proof.Machine
end

