-- ==== Sys2Proof/Laws/Ops.lean ====
section
/-! SUPPORT. What each shared operation can do, said once: a later proof cites these and unfolds nothing. -/

namespace Sys2Proof.Machine

/-! ## Serializer -/

/-- A TX op holds, is refused for its address, or starts its frame (R203). -/
theorem State.txOp_cases {cmd : Byte} {addr : Addr} {len pcnt : Half} {ckm : CkMode} {ckv : Half}
    {s t : State} (h : s.txOp cmd addr len pcnt ckm ckv = t) :
    (s.tx.ph ≠ .idle ∧ t = s) ∨
      (s.tx.ph = .idle ∧ s.addrLimit < addr ∧ t = s.raise (.addressOutOfRange addr)) ∨
      (s.tx.ph = .idle ∧ addr ≤ s.addrLimit ∧ t = s.withTx (txStart cmd addr len pcnt ckm ckv s.tx)) := by
  unfold State.txOp at h
  split at h
  · split at h
    · exact .inr (.inl ⟨‹_›, ‹_›, h.symm⟩)
    · exact .inr (.inr ⟨‹_›, BitVec.not_lt.mp ‹_›, h.symm⟩)
  · exact .inl ⟨‹_›, h.symm⟩

/-- A TX line step does nothing where no byte is presented, and else takes it and advances (R54). -/
theorem State.txLineStep_cases (s : State) :
    (txPresented s.tx = none ∧ s.txLineStep = s) ∨
      ∃ b, txPresented s.tx = some b ∧
        s.txLineStep = (s.withTx (txAdvance s.tx)).withTxlog (s.txlog ++ [b]) := by
  unfold State.txLineStep
  cases h : txPresented s.tx with
  | none => exact .inl ⟨rfl, rfl⟩
  | some b => exact .inr ⟨b, rfl, rfl⟩

/-- The serializer presents no byte exactly in IDLE and in PAY with PBV = 0 (R120). -/
theorem txPresented_eq_none (t : Tx) : txPresented t = none ↔ t.ph = .idle ∨ (t.ph = .pay ∧ t.pbv = false) := by
  unfold txPresented
  cases t.ph <;> simp

/-- Advancing writes only TXPH, and in PAY also TXACC, TXIDX and PBV (R127, R129). -/
theorem txAdvance_latches (t : Tx) :
    (txAdvance t).cmd = t.cmd ∧ (txAdvance t).addr = t.addr ∧ (txAdvance t).len = t.len ∧
      (txAdvance t).pcnt = t.pcnt ∧ (txAdvance t).ckm = t.ckm ∧ (txAdvance t).ckv = t.ckv ∧
      (txAdvance t).pbuf = t.pbuf := by
  unfold txAdvance
  cases t.ph <;> simp

theorem txAdvance_of_ne_pay (t : Tx) (h : t.ph ≠ .pay) :
    (txAdvance t).idx = t.idx ∧ (txAdvance t).acc = t.acc ∧ (txAdvance t).pbv = t.pbv := by
  unfold txAdvance
  cases hp : t.ph <;> simp_all

@[simp] theorem State.txLineStep_hacc (s : State) : s.txLineStep.hacc = s.hacc := by
  rcases s.txLineStep_cases with ⟨-, h⟩ | ⟨b, -, h⟩ <;> simp [h]
@[simp] theorem State.txLineStep_rx (s : State) : s.txLineStep.rx = s.rx := by
  rcases s.txLineStep_cases with ⟨-, h⟩ | ⟨b, -, h⟩ <;> simp [h]
@[simp] theorem State.txLineStep_err (s : State) : s.txLineStep.err = s.err := by
  rcases s.txLineStep_cases with ⟨-, h⟩ | ⟨b, -, h⟩ <;> simp [h]
@[simp] theorem State.txLineStep_evlog (s : State) : s.txLineStep.evlog = s.evlog := by
  rcases s.txLineStep_cases with ⟨-, h⟩ | ⟨b, -, h⟩ <;> simp [h]
@[simp] theorem State.txLineStep_threads (s : State) : s.txLineStep.threads = s.threads := by
  rcases s.txLineStep_cases with ⟨-, h⟩ | ⟨b, -, h⟩ <;> simp [h]
@[simp] theorem State.txLineStep_sched (s : State) : s.txLineStep.sched = s.sched := by
  rcases s.txLineStep_cases with ⟨-, h⟩ | ⟨b, -, h⟩ <;> simp [h]
@[simp] theorem State.txLineStep_addrLimit (s : State) : s.txLineStep.addrLimit = s.addrLimit := by
  rcases s.txLineStep_cases with ⟨-, h⟩ | ⟨b, -, h⟩ <;> simp [h]

/-! ## Deframer -/

/-- The sticky bits after an error that may be absent. -/
def Sticky.markAny (k : Sticky) : Option CodecError → Sticky
  | none => k
  | some e => k.mark e

/-- The event words an event that may be absent adds. -/
def eventWords : Option Event → List EventWord
  | none => []
  | some e => [eventWord e]

/-- An RX line step writes the deframer, EVLOG and the sticky bits, nothing else (R55). -/
theorem State.rxLineStep_eq (b : Byte) (s : State) :
    s.rxLineStep b =
      { s with
        rx := (rxReceive b s.rx).rx
        evlog := s.evlog ++ eventWords (rxReceive b s.rx).event
        err := s.err.markAny (rxReceive b s.rx).error } := by
  unfold State.rxLineStep
  generalize rxReceive b s.rx = r
  obtain ⟨rx, event, error⟩ := r
  cases event <;> cases error <;> simp [eventWords] <;> rfl

@[simp] theorem State.rxLineStep_hacc (b : Byte) (s : State) : (s.rxLineStep b).hacc = s.hacc := by
  rw [s.rxLineStep_eq b]
@[simp] theorem State.rxLineStep_tx (b : Byte) (s : State) : (s.rxLineStep b).tx = s.tx := by
  rw [s.rxLineStep_eq b]
@[simp] theorem State.rxLineStep_rx (b : Byte) (s : State) : (s.rxLineStep b).rx = (rxReceive b s.rx).rx := by
  rw [s.rxLineStep_eq b]
@[simp] theorem State.rxLineStep_evlog (b : Byte) (s : State) :
    (s.rxLineStep b).evlog = s.evlog ++ eventWords (rxReceive b s.rx).event := by
  rw [s.rxLineStep_eq b]
@[simp] theorem State.rxLineStep_err (b : Byte) (s : State) :
    (s.rxLineStep b).err = s.err.markAny (rxReceive b s.rx).error := by
  rw [s.rxLineStep_eq b]
@[simp] theorem State.rxLineStep_txlog (b : Byte) (s : State) : (s.rxLineStep b).txlog = s.txlog := by
  rw [s.rxLineStep_eq b]
@[simp] theorem State.rxLineStep_threads (b : Byte) (s : State) : (s.rxLineStep b).threads = s.threads := by
  rw [s.rxLineStep_eq b]
@[simp] theorem State.rxLineStep_sched (b : Byte) (s : State) : (s.rxLineStep b).sched = s.sched := by
  rw [s.rxLineStep_eq b]
@[simp] theorem State.rxLineStep_addrLimit (b : Byte) (s : State) : (s.rxLineStep b).addrLimit = s.addrLimit := by
  rw [s.rxLineStep_eq b]

/-! ## Ports -/

/-- The payload port takes a byte exactly at TXPH = PAY with PBV = 0 (R128). -/
theorem State.payloadReady_iff (s : State) : s.payloadReady = true ↔ s.tx.ph = .pay ∧ s.tx.pbv = false := by
  simp [State.payloadReady]

/-- A command word is accepted at IDLE, and any word but a TX op's at every step (R26). -/
theorem State.accepts_iff (i : Instr) (s : State) : s.accepts i = true ↔ (isTxOp i = true → s.tx.ph = .idle) := by
  unfold State.accepts
  cases isTxOp i <;> simp

/-- Issuing a word passes it to `exec`, and moves its thread on exactly where the word is accepted (R27). -/
theorem State.issueWord_eq (k : Nat) (t : HostThread) (rest : List HostAction) (w : CmdWord) (s : State) :
    s.issueWord k t rest w = .command (decode w) (if s.accepts (decode w) then s.retire k t rest else s) := rfl

/-- What the turn of host thread k can come to. -/
theorem State.hostMove_cases (k : Nat) (s : State) :
    s.hostMove k = .done s ∨
      ∃ t, s.threads[k]? = some t ∧
        ((∃ w rest, t.prog = .issue w :: rest ∧ s.hostMove k = s.issueWord k t rest w) ∨
          (∃ b rest, t.prog = .put b :: rest ∧ s.payloadReady = true ∧
            s.hostMove k = .done ((s.putByte b).retire k t rest)) ∨
          (∃ rest, t.prog = .rdStat :: rest ∧ s.hostMove k = .done (s.retireRead k t rest (.status s.status))) ∨
          (∃ rest, t.prog = .rdAcc :: rest ∧ s.hostMove k = .done (s.retireRead k t rest (.ckAcc s.hacc))) ∨
          (∃ w ws rest, t.prog = .takeEv :: rest ∧ s.evlog = w :: ws ∧
            s.hostMove k = .done ((s.withEvlog ws).retireRead k t rest (.event w)))) := by
  unfold State.hostMove
  cases s.threads[k]? with
  | none => exact .inl rfl
  | some t =>
    obtain ⟨prog, reads⟩ := t
    cases prog with
    | nil => exact .inl rfl
    | cons a rest =>
      cases a with
      | issue w => exact .inr ⟨_, rfl, .inl ⟨w, rest, rfl, rfl⟩⟩
      | put b =>
        cases hr : s.payloadReady with
        | false => exact .inl (by simp [State.hostPut, hr])
        | true => exact .inr ⟨_, rfl, .inr (.inl ⟨b, rest, rfl, rfl, by simp [State.hostPut, hr]⟩)⟩
      | rdStat => exact .inr ⟨_, rfl, .inr (.inr (.inl ⟨rest, rfl, rfl⟩))⟩
      | rdAcc => exact .inr ⟨_, rfl, .inr (.inr (.inr (.inl ⟨rest, rfl, rfl⟩)))⟩
      | takeEv =>
        cases he : s.evlog with
        | nil => exact .inl (by simp [State.hostTake, he])
        | cons w ws =>
          exact .inr ⟨_, rfl, .inr (.inr (.inr (.inr ⟨w, ws, rest, rfl, rfl, by simp [State.hostTake, he]⟩)))⟩

/-- What the turn of a host thread can do to the block before a command word is carried out: a `PUT` fills PBUF where
the payload port is ready, a take removes the head of EVLOG, and nothing else of the block is written. -/
theorem State.hostMove_block {k : Nat} {s : State} {m : Move} (h : s.hostMove k = m) :
    (∃ u : State, m = .done u ∧ u.hacc = s.hacc ∧ u.rx = s.rx ∧ u.err = s.err ∧ u.txlog = s.txlog ∧
        u.sched = s.sched ∧ u.addrLimit = s.addrLimit ∧
        (u.tx = s.tx ∨
          (s.tx.ph = .pay ∧ s.tx.pbv = false ∧ ∃ b, u.tx = { s.tx with pbuf := b, pbv := true })) ∧
        (u.evlog = s.evlog ∨
          ∃ w t rest, s.threads[k]? = some t ∧ t.prog = .takeEv :: rest ∧ s.evlog = w :: u.evlog)) ∨
      (∃ (i : Instr) (u : State), m = .command i u ∧ u.hacc = s.hacc ∧ u.tx = s.tx ∧ u.rx = s.rx ∧ u.err = s.err ∧
        u.evlog = s.evlog ∧ u.txlog = s.txlog ∧ u.sched = s.sched ∧ u.addrLimit = s.addrLimit) := by
  rcases s.hostMove_cases k with h' | ⟨t, ht, h'⟩
  · exact .inl ⟨s, h.symm.trans h', rfl, rfl, rfl, rfl, rfl, rfl, .inl rfl, .inl rfl⟩
  rcases h' with ⟨w, r, hp, h'⟩ | ⟨b, r, hp, hr, h'⟩ | ⟨r, hp, h'⟩ | ⟨r, hp, h'⟩ | ⟨w, ws, r, hp, he, h'⟩ <;>
    rw [h] at h' <;> subst h'
  · right
    refine ⟨_, _, rfl, ?_⟩
    split <;> simp
  · have hr := s.payloadReady_iff.mp hr
    exact .inl ⟨_, rfl, rfl, rfl, rfl, rfl, rfl, rfl, .inr ⟨hr.1, hr.2, b, rfl⟩, .inl rfl⟩
  · exact .inl ⟨_, rfl, rfl, rfl, rfl, rfl, rfl, rfl, .inl rfl, .inl rfl⟩
  · exact .inl ⟨_, rfl, rfl, rfl, rfl, rfl, rfl, rfl, .inl rfl, .inl rfl⟩
  · exact .inl ⟨_, rfl, rfl, rfl, rfl, rfl, rfl, rfl, .inl rfl, .inr ⟨w, t, r, ht, hp, he⟩⟩

/-! ## Instructions and steps -/

/-- The state an instruction leaves, constructor by constructor. -/
theorem exec_next_cases {i : Instr} {s t : State} (h : exec i s = .next t) :
    match i with
    | .nop => t = s
    | .ckClear => t = s.withHacc 0#16
    | .ckAdd d => t = s.withHacc (accAdd s.hacc d)
    | .txWrite a l => t = s.txOp Config.cmdWrite a l l .acc 0#16
    | .txRead a l => t = s.txOp Config.cmdRead a l 0#16 .fix 0#16
    | .txBuild c a l n k => t = s.txOp c.byte a l n .fix k
    | .rxReset => t = s.withRx { s.rx with ph := .hunt0 }
    | .clrStatus => t = s.clearErrors
    | .reserved op => t = s.raise (.illegalOp op) := by
  cases i <;> exact (Host.Outcome.next.inj h).symm

/-- No instruction writes ADDR_LIMIT (R6). -/
theorem exec_addrLimit {i : Instr} {s t : State} (h : exec i s = .next t) : t.addrLimit = s.addrLimit := by
  have key : ∀ cmd a l n m k, (s.txOp cmd a l n m k).addrLimit = s.addrLimit := by
    intro cmd a l n m k
    rcases State.txOp_cases (rfl : s.txOp cmd a l n m k = _) with ⟨-, h⟩ | ⟨-, -, h⟩ | ⟨-, -, h⟩ <;> simp [h]
  have ht := exec_next_cases h
  cases i <;> simp only at ht <;> subst ht <;> first | rfl | exact key ..

/-- A step is nobody's, or that of the agent at the head of `sched` (R11). -/
theorem step_next_cases {s t : State} (h : step s = .next t) :
    (s.sched = [] ∧ t = s) ∨
      (∃ rest, s.sched = .txLine :: rest ∧ t = (s.withSched rest).txLineStep) ∨
      (∃ b rest, s.sched = .rxLine b :: rest ∧ t = (s.withSched rest).rxLineStep b) ∨
      (∃ rest, s.sched = .resetInput :: rest ∧ t = (s.withSched rest).resetBlock) ∨
      (∃ k rest, s.sched = .host k :: rest ∧
        (((s.withSched rest).hostMove k = .done t) ∨
          ∃ i u, (s.withSched rest).hostMove k = .command i u ∧ exec i u = .next t)) := by
  unfold step State.nextMove at h
  cases hs : s.sched with
  | nil => simp only [hs] at h; exact .inl ⟨rfl, (Host.Outcome.next.inj h).symm⟩
  | cons turn rest =>
    simp only [hs] at h
    cases turn with
    | txLine => exact .inr (.inl ⟨rest, rfl, (Host.Outcome.next.inj h).symm⟩)
    | rxLine b => exact .inr (.inr (.inl ⟨b, rest, rfl, (Host.Outcome.next.inj h).symm⟩))
    | resetInput => exact .inr (.inr (.inr (.inl ⟨rest, rfl, (Host.Outcome.next.inj h).symm⟩)))
    | host k =>
      refine .inr (.inr (.inr (.inr ⟨k, rest, rfl, ?_⟩)))
      simp only [State.moveOf] at h
      cases hm : (s.withSched rest).hostMove k with
      | done u => simp only [hm] at h; exact .inl (by rw [Host.Outcome.next.inj h])
      | command i u => simp only [hm] at h; exact .inr ⟨i, u, rfl, h⟩

end Sys2Proof.Machine
end

