-- ==== Sys2Proof/Laws/PerInstr.lean ====
section
/-! SUPPORT. Statements about every instruction as syntax, one lemma per constructor. -/

namespace Sys2Proof.Laws

namespace FixedFields

/-- The assembled word of an instruction holds its op value in OP and 0 in RSV, and TX_BUILD alone sets CSEL (R73, R90). -/
def Statement (i : Instr) : Prop :=
  opField (encode i) = i.opcode ∧ rsvField (encode i) = 0#3 ∧
    (i.opcode ≠ 0x5#4 → cselField (encode i) = 0#1)

end FixedFields

/-- OP of a packed word. -/
theorem opField_packWord (ckv pcnt len : Half) (addr : Addr) (data : Byte) (rsv : BitVec 3) (csel : BitVec 1)
    (op : BitVec 4) : opField (packWord ckv pcnt len addr data rsv csel op) = op :=
  BitVec.extractLsb'_append_eq_right

/-- RSV of a packed word. -/
theorem rsvField_packWord (ckv pcnt len : Half) (addr : Addr) (data : Byte) (rsv : BitVec 3) (csel : BitVec 1)
    (op : BitVec 4) : rsvField (packWord ckv pcnt len addr data rsv csel op) = rsv := by
  ext j hj
  simp only [rsvField, packWord, BitVec.getElem_extractLsb', BitVec.getLsbD_append]
  have h1 : ¬ 5 + j < 4 := by omega
  have h2 : ¬ 5 + j - 4 < 1 := by omega
  have h4 : 5 + j - 4 - 1 = j := by omega
  simp [h1, h2, h4, hj]

/-- CSEL of a packed word. -/
theorem cselField_packWord (ckv pcnt len : Half) (addr : Addr) (data : Byte) (rsv : BitVec 3) (csel : BitVec 1)
    (op : BitVec 4) : cselField (packWord ckv pcnt len addr data rsv csel op) = csel := by
  ext j hj
  simp only [cselField, packWord, BitVec.getElem_extractLsb', BitVec.getLsbD_append]
  have h1 : ¬ 4 + j < 4 := by omega
  simp [h1, hj]

namespace FixedFields

theorem nop : Statement .nop := ⟨opField_packWord .., rsvField_packWord .., fun _ => cselField_packWord ..⟩
theorem ckClear : Statement .ckClear := ⟨opField_packWord .., rsvField_packWord .., fun _ => cselField_packWord ..⟩
theorem ckAdd (data : Byte) : Statement (.ckAdd data) :=
  ⟨opField_packWord .., rsvField_packWord .., fun _ => cselField_packWord ..⟩
theorem txWrite (addr : Addr) (len : Half) : Statement (.txWrite addr len) :=
  ⟨opField_packWord .., rsvField_packWord .., fun _ => cselField_packWord ..⟩
theorem txRead (addr : Addr) (len : Half) : Statement (.txRead addr len) :=
  ⟨opField_packWord .., rsvField_packWord .., fun _ => cselField_packWord ..⟩
theorem txBuild (csel : FrameCmd) (addr : Addr) (len pcnt ckv : Half) : Statement (.txBuild csel addr len pcnt ckv) :=
  ⟨opField_packWord .., rsvField_packWord .., fun h => absurd rfl h⟩
theorem rxReset : Statement .rxReset := ⟨opField_packWord .., rsvField_packWord .., fun _ => cselField_packWord ..⟩
theorem clrStatus : Statement .clrStatus := ⟨opField_packWord .., rsvField_packWord .., fun _ => cselField_packWord ..⟩
theorem reserved (op : BitVec 4) : Statement (.reserved op) :=
  ⟨opField_packWord .., rsvField_packWord .., fun _ => cselField_packWord ..⟩

end FixedFields

end Sys2Proof.Laws
end

