-- ==== Sys2Proof/Tests/Slice0.lean ====
section
/-! SUPPORT. The model's own tests, with values from 95_test_vectors.md and the examples of the rules; and for each
statement of Certificates/Slice0 that has hypotheses, states and operands that meet them together. -/

namespace Sys2Proof.Tests

open Sys2Proof Sys2Proof.Machine

/-! ## Helpers -/

/-- The next state of an outcome. -/
def after : Host.Outcome State Fault Refusal → Option State
  | .next s => some s
  | .fault _ => none
  | .refused _ => none

/-- The state after reset with the serializer as given. -/
def withSerializer (t : Tx) : State := { State.reset with tx := t }

/-- The state after reset with the deframer as given. -/
def withDeframer (r : Rx) : State := { State.reset with rx := r }

/-- A WRITE frame to 0xFFFF with the one payload byte 0x5A, waiting for that byte in PAY. -/
def txWaiting : Tx :=
  { Tx.reset with ph := .pay, cmd := 0x57#8, addr := 0x0000FFFF#32, len := 1#16, pcnt := 1#16 }

/-- The deframer in PAY after `i` of `n` payload bytes of a WRITE frame to 0x000A. -/
def rxPaying (i n : Half) : Rx :=
  { Rx.reset with ph := .pay, cmd := 0x57#8, addr := 0x0000000A#32, len := n, pcnt := n, idx := i }

/-- The sticky bits of STATUS 0x0005. -/
def addrAndCk : Sticky := { Sticky.clear with eAddr := true, eRxck := true }

/-- One host thread with the actions given, whose turn it is. -/
def hostTurn (acts : List HostAction) (s : State) : State :=
  { s with threads := [{ prog := acts, reads := [] }], sched := [.host 0] }

/-- One turn due. -/
def turn (t : Turn) (s : State) : State := { s with sched := [t] }

def txPhases : List TxPhase := [.idle, .s0, .s1, .cmd, .a0, .a1, .a2, .a3, .l0, .l1, .pay, .k0, .k1]

def rxPhases : List RxPhase := [.hunt0, .hunt1, .cmd, .a0, .a1, .a2, .a3, .l0, .l1, .pay, .k0, .k1]

/-! ## WellFormed refuses an ill-formed term of its one check -/

theorem test_reserved_below_8_is_ill_formed :
    (Instr.reserved 0x3#4).wellFormed = false ∧ (Instr.reserved 0x7#4).wellFormed = false := by decide

theorem test_wider_than_the_port_is_rejected_by_name :
    decodeBits 97 (2 ^ 96) = .error (.widerThanCommandPort 97) ∧ decodeTableWord 97 (2 ^ 96) = none := by decide

/-! ## Decoding: words written out from R71 and R76, group by group CKV_PCNT_LEN_ADDR_DATA_CTL -/

theorem test_decode_nop : decode 0xFFFFFFFFFFFFFFFFFFFFFFF0#96 = .nop := by decide
theorem test_decode_ckClear : decode 0x000000000000000000000001#96 = .ckClear := by decide
theorem test_decode_ckAdd : decode 0xFFFFFFFFFFFFFFFFFFFF01F2#96 = .ckAdd 0x01#8 := by decide
theorem test_decode_txWrite : decode 0x0000000000020000000A0003#96 = .txWrite 0x0000000A#32 2#16 := by decide
theorem test_decode_txRead : decode 0x000000000010000012340004#96 = .txRead 0x00001234#32 16#16 := by decide
theorem test_decode_txBuild :
    decode 0x123400020004000001000015#96 = .txBuild .read 0x00000100#32 4#16 2#16 0x1234#16 := by decide
theorem test_decode_rxReset : decode 0x000000000000000000000006#96 = .rxReset := by decide
theorem test_decode_clrStatus : decode 0x000000000000000000000007#96 = .clrStatus := by decide
theorem test_decode_reserved : decode 0x00000000000200010000000B#96 = .reserved 0xB#4 := by decide
theorem test_decode_table_word : decodeTableWord 16 0xA502 = some (.ckAdd 0xA5#8) := by decide
theorem test_encode_txBuild :
    encode (.txBuild .write 0x00000100#32 4#16 2#16 0x1234#16) = 0x123400020004000001000005#96 := by decide

/-! ## Event words (95_test_vectors.md 2.3) -/

theorem test_event_hdr : eventWord (.hdr 0x52#8 0x0000000A#32 2#16) = 0x00020000000A5200#64 := by decide
theorem test_event_pay : eventWord (.pay 0x5A#8 1#16) = 0x0000000000015A01#64 := by decide
theorem test_event_end : eventWord (.endFrame true 0x00FF#16 0x00FF#16) = 0x000000FF00FF0012#64 := by decide
theorem test_event_end_bad : eventWord (.endFrame false 1#16 0#16) = 0x0000000000010002#64 := by decide
theorem test_event_badCmd : eventWord (.badCmd 0x41#8) = 0x0000000000004103#64 := by decide
theorem test_event_kind_4_is_none : eventFields 0x0000000000000004#64 = none := by decide

/-! ## The instructions, one step each -/

/-- V-K2. -/
theorem test_nop_changes_nothing :
    after (exec (decode 0xFFFFFFFFFFFFFFFFFFFFFFF0#96) (withSerializer txWaiting)) = some (withSerializer txWaiting) := by
  decide

/-- The example of R104. -/
theorem test_ckClear : (after (exec .ckClear { State.reset with hacc := 0x1234#16 })).map (·.hacc) = some 0x0000#16 := by
  decide

/-- V-C6. -/
theorem test_ckAdd_wraps :
    (after (exec (.ckAdd 0x01#8) { State.reset with hacc := 0xFFFF#16 })).map (·.hacc) = some 0x0000#16 := by decide

/-- V-C7. -/
theorem test_ckAdd_carry_is_dropped :
    (after (exec (.ckAdd 0x20#8) { State.reset with hacc := 0xFFF0#16 })).map (·.hacc) = some 0x0010#16 := by decide

/-- R123: the payload count is LEN and the checksum is TXACC. -/
theorem test_txWrite_latches :
    (after (exec (.txWrite 0x0000000A#32 2#16) State.reset)).map (fun s => (s.tx.cmd, s.tx.pcnt, s.tx.ckm, s.tx.ph)) =
      some (0x57#8, 2#16, .acc, .s0) := by decide

/-- V-T4. -/
theorem test_txWrite_address_fault :
    (after (exec (.txWrite 0x00010000#32 2#16) State.reset)).map (fun s => (s.status, s.tx)) =
      some (0x0001#16, Tx.reset) := by decide

/-- R6, R122: under another ADDR_LIMIT the same word faults, or an address above 0xFFFF passes. -/
theorem test_address_check_reads_its_limit :
    (after (exec (.txRead 0x00001234#32 16#16) (State.resetWith 0x0FFF#32))).map (·.status) = some 0x0001#16 ∧
      (after (exec (.txRead 0x00010000#32 1#16) (State.resetWith 0x00010000#32))).map (·.status) =
        some 0x0100#16 := by decide

/-- R124: LEN is only the length field. -/
theorem test_txRead_latches :
    (after (exec (.txRead 0x00001234#32 16#16) State.reset)).map (fun s => (s.tx.cmd, s.tx.len, s.tx.pcnt, s.tx.ckm)) =
      some (0x52#8, 16#16, 0#16, .fix) := by decide

/-- V-T16. -/
theorem test_txRead_holds_in_pay :
    after (exec (.txRead 5#32 0#16) (withSerializer txWaiting)) = some (withSerializer txWaiting) := by decide

/-- V-T10: PCNT and CKV apart from LEN. -/
theorem test_txBuild_latches :
    (after (exec (.txBuild .write 0x00000100#32 4#16 2#16 0x1234#16) State.reset)).map
        (fun s => (s.tx.cmd, s.tx.len, s.tx.pcnt, s.tx.ckv)) = some (0x57#8, 4#16, 2#16, 0x1234#16) := by decide

/-- V-T15. -/
theorem test_txBuild_address_fault :
    (after (exec (.txBuild .write 0x00010000#32 0#16 0#16 0#16) State.reset)).map (·.status) = some 0x0001#16 := by
  decide

/-- V-K9. -/
theorem test_rxReset_in_pay :
    (after (exec .rxReset (withDeframer (rxPaying 3#16 10#16)))).map (fun s => (s.rx.ph, s.rx.idx, s.status)) =
      some (.hunt0, 3#16, 0x0000#16) := by decide

/-- V-K3: STATUS 0x0105 becomes 0x0100. -/
theorem test_clrStatus_keeps_live_bits :
    (after (exec .clrStatus { withSerializer { txWaiting with ph := .k0 } with err := addrAndCk })).map (·.status) =
      some 0x0100#16 := by decide

/-- V-K7: E_ILLOP and not E_ADDR. -/
theorem test_reserved_checks_no_address :
    (after (exec (decode 0x00000000000200010000000B#96) State.reset)).map (·.status) = some 0x0002#16 := by decide

/-- V-K8: accepted with a frame in progress. -/
theorem test_reserved_is_not_held :
    (after (exec (.reserved 0xC#4) (withSerializer txWaiting))).map (fun s => (s.status, s.tx)) =
      some (0x0502#16, txWaiting) := by decide

/-! ## The lines and the ports, one step each -/

/-- V-T6's payload step: 0xFF is sent, summed and counted, and K0 follows. -/
theorem test_txLine_sends_payload :
    (withSerializer { txWaiting with pbuf := 0xFF#8, pbv := true }).txLineStep.tx.acc = 0x00FF#16 ∧
      (withSerializer { txWaiting with pbuf := 0xFF#8, pbv := true }).txLineStep.txlog = [0xFF#8] ∧
      (withSerializer { txWaiting with pbuf := 0xFF#8, pbv := true }).txLineStep.tx.ph = .k0 := by decide

/-- V-R7: a bad command 0xAA begins the next marker. -/
theorem test_rxLine_bad_command_aa :
    ((withDeframer { Rx.reset with ph := .cmd }).rxLineStep 0xAA#8).rx.ph = .hunt1 ∧
      ((withDeframer { Rx.reset with ph := .cmd }).rxLineStep 0xAA#8).status = 0x0008#16 := by decide

/-- V-R3's last byte: the low checksum byte 0x01 does not match the sum 0. -/
theorem test_rxLine_mismatch :
    ((withDeframer { Rx.reset with ph := .k1, ckl := 0x01#8 }).rxLineStep 0x00#8).evlog = [0x0000000000010002#64] ∧
      ((withDeframer { Rx.reset with ph := .k1, ckl := 0x01#8 }).rxLineStep 0x00#8).status = 0x0004#16 := by decide

/-- V-C1 as a program's first instruction: `CK_ADD 0xA5` placed where the step fetches it. -/
theorem test_fetched_word_runs :
    (after (step (State.reset.withFetchWord 16 0xA502))).map (·.hacc) = some 0x00A5#16 := by decide

/-- The assembler's `SEND` of V-T1 (R91). -/
theorem test_asm_send :
    asmExpand (.send 0x0000000A#32 [0xA5#8, 0x5A#8]) =
      some [.issue 0x0000000000020000000A0003#96, .put 0xA5#8, .put 0x5A#8] := by decide

/-! ## Witnesses: each theorem is named after the statement whose hypotheses it meets -/

theorem test_witness_DecodeOfEncode :
    (Instr.reserved 0x8#4).wellFormed = true ∧ (Instr.reserved 0xF#4).wellFormed = true ∧
      (Instr.txBuild .read 0xFFFFFFFF#32 0xFFFF#16 0xFFFF#16 0xFFFF#16).wellFormed = true := by decide

/-- The hypotheses of UnreadFieldsHaveNoEffect, for two words. -/
def sameReads (w w' : CmdWord) : Prop :=
  opField w = opField w' ∧
    (opField w = 0x2#4 → dataField w = dataField w') ∧
    (opField w = 0x3#4 ∨ opField w = 0x4#4 ∨ opField w = 0x5#4 →
      addrField w = addrField w' ∧ lenField w = lenField w') ∧
    (opField w = 0x5#4 → cselField w = cselField w' ∧ pcntField w = pcntField w' ∧ ckvField w = ckvField w')

theorem test_witness_UnreadFieldsHaveNoEffect :
    sameReads 0x000000000000000000000000#96 0xFFFFFFFFFFFFFFFFFFFFFFF0#96 ∧
      sameReads 0x000000000000000000000102#96 0xFFFFFFFFFFFFFFFFFFFF01F2#96 ∧
      sameReads 0x0000000000020000000A0003#96 0xFFFFFFFF00020000000AFFF3#96 ∧
      sameReads 0x123400020004000001000015#96 0x12340002000400000100FFF5#96 := by
  unfold sameReads
  refine ⟨?_, ?_, ?_, ?_⟩ <;> decide

theorem test_witness_DecodeSelectsByOpAlone :
    opField 0xFFFFFFFFFFFFFFFFFFFFFFF0#96 = 0x0#4 ∧ opField 0xFFFFFFFFFFFFFFFFFFFFFFF1#96 = 0x1#4 ∧
      opField 0xFFFFFFFFFFFFFFFFFFFFFFF2#96 = 0x2#4 ∧ opField 0xFFFFFFFFFFFFFFFFFFFFFFF3#96 = 0x3#4 ∧
      opField 0xFFFFFFFFFFFFFFFFFFFFFFF4#96 = 0x4#4 ∧ opField 0xFFFFFFFFFFFFFFFFFFFFFFF5#96 = 0x5#4 ∧
      opField 0xFFFFFFFFFFFFFFFFFFFFFFF6#96 = 0x6#4 ∧ opField 0xFFFFFFFFFFFFFFFFFFFFFFF7#96 = 0x7#4 ∧
      0x8#4 ≤ opField 0x000000000000000000000008#96 ∧ 0x8#4 ≤ opField 0x00000000000000000000000F#96 := by decide

theorem test_witness_CkClearClearsHacc : opField 0xFFFFFFFFFFFFFFFFFFFFFFF1#96 = 0x1#4 := by decide
theorem test_witness_CkAddAddsItsByte : opField 0xFFFFFFFFFFFFFFFFFFFF01F2#96 = 0x2#4 := by decide
theorem test_witness_RxResetReturnsToTheHunt :
    opField 0xFFFFFFFFFFFFFFFFFFFFFFF6#96 = 0x6#4 ∧ State.reset.rx.ph = .hunt0 ∧
      ({ rxPaying 3#16 10#16 with ph := .hunt0 } : Rx).ph = .hunt0 := by decide
theorem test_witness_NopChangesNothing : opField 0xFFFFFFFFFFFFFFFFFFFFFFF0#96 = 0x0#4 := by decide
theorem test_witness_ClrStatusClearsTheStickyBits : opField 0xFFFFFFFFFFFFFFFFFFFFFFF7#96 = 0x7#4 := by decide
theorem test_witness_ReservedOpOnlySetsIllop :
    0x8#4 ≤ opField 0x000000000000000000000008#96 ∧ 0x8#4 ≤ opField 0xFFFFFFFFFFFFFFFFFFFFFFFF#96 := by decide

theorem test_witness_ChecksumIgnoresOrderAndZeros :
    ([0x01#8, 0x02#8] : List Byte).Perm [0x02#8, 0x01#8] ∧
      ([0x01#8, 0x02#8] : List Byte).filter (· ≠ 0x00#8) =
        [0x01#8, 0x00#8, 0x02#8, 0x00#8].filter (· ≠ 0x00#8) := by decide

/-- Each of the three ways HACC changes. -/
theorem test_witness_HaccWrittenOnlyByItsOps :
    (after (step (turn .resetInput { State.reset with hacc := 1#16 }))).map (·.hacc) = some 0#16 ∧
      (after (step (hostTurn [.issue 0x1#96] { State.reset with hacc := 1#16 }))).map (·.hacc) = some 0#16 ∧
      (after (step (hostTurn [.issue 0x0102#96] { State.reset with hacc := 1#16 }))).map (·.hacc) = some 2#16 := by
  decide

theorem test_witness_TxOpStartsItsFrame :
    State.reset.tx.ph = .idle ∧ 0x0000FFFF#32 ≤ State.reset.addrLimit ∧
      0xFFFFFFFF#32 ≤ (State.resetWith 0xFFFFFFFF#32).addrLimit ∧
      (withSerializer { txWaiting with ph := .s0 }).tx.ph = .s0 := by decide

/-- The last address that passes and the first that does not, for the default limit and for 0x1F; the instruction may
be any of the three. -/
theorem test_witness_TxOpChecksItsAddressFirst :
    State.reset.tx.ph = .idle ∧ ¬ (0x0000FFFF#32 : Addr).toNat > State.reset.addrLimit.toNat ∧
      (0x00010000#32 : Addr).toNat > State.reset.addrLimit.toNat ∧ (State.resetWith 0x1F#32).tx.ph = .idle ∧
      ¬ (0x1F#32 : Addr).toNat > (State.resetWith 0x1F#32).addrLimit.toNat ∧
      (0x20#32 : Addr).toNat > (State.resetWith 0x1F#32).addrLimit.toNat := by decide

theorem test_witness_TxOpHoldsUnlessIdle :
    (withSerializer txWaiting).accepts (.txRead 5#32 0#16) = false ∧
      (withSerializer txWaiting).accepts (.reserved 0xC#4) = true ∧
      State.reset.accepts (.txRead 5#32 0#16) = true := by decide

theorem test_witness_NoOpCutsAFrameShort :
    (withSerializer txWaiting).tx.ph ≠ .idle ∧
      (after (exec .rxReset (withSerializer txWaiting))).isSome = true ∧
      (after (step (turn .txLine (withSerializer { txWaiting with ph := .k1 })))).map (·.tx.ph) = some .idle ∧
      (turn .txLine (withSerializer { txWaiting with ph := .k1 })).sched.head? ≠ some .resetInput := by decide

/-- Every phase, with PBV 0 and 1; also for TxLineStepMovesToTheSuccessor. -/
theorem test_witness_PresentedByteOfEachPhase :
    ∀ ph ∈ txPhases, ∀ v ∈ [false, true],
      (withSerializer { txWaiting with ph := ph, pbv := v }).tx.ph = ph ∧
        (withSerializer { txWaiting with ph := ph, pbv := v }).tx.pbv = v := by decide

theorem test_witness_TxLineStepSendsThePayloadByte :
    txWaiting.ph = .pay ∧ txWaiting.pbv = false ∧ { txWaiting with pbv := true }.pbv = true ∧
      { txWaiting with ckm := .fix }.ckm = .fix := by decide

/-- Taken (first state) and held (second). -/
theorem test_witness_PutIsTakenOnlyInPay :
    (hostTurn [.put 0x77#8] (withSerializer txWaiting)).sched = [.host 0] ∧
      (hostTurn [.put 0x77#8] (withSerializer txWaiting)).threads[0]? =
        some { prog := [.put 0x77#8], reads := [] } ∧
      (after (step (hostTurn [.put 0x77#8] (withSerializer txWaiting)))).map (fun s => (s.tx.pbuf, s.tx.pbv)) =
        some (0x77#8, true) ∧
      (after (step (hostTurn [.put 0x77#8] State.reset))).map (·.threads) =
        some [{ prog := [.put 0x77#8], reads := [] }] := by decide

/-- The transmit steps of a frame of no payload, and of one byte 0x5A. -/
def movesOf (p : List Byte) : List TxMove := frameMoves p

/-- The state an instruction leaves after reset. -/
def started (i : Instr) : State := (after (exec i State.reset)).getD State.reset

/-- Each TX op accepted at 0xFFFF, and its transmit steps back to IDLE: AcceptedTxOpEmitsExactlyItsFrame,
FrameCompletesInItsStepCount and the second half of FrameRoundTrip. -/
theorem test_witness_AcceptedTxOpEmitsExactlyItsFrame :
    State.reset.tx.ph = .idle ∧ 0x0000FFFF#32 ≤ State.reset.addrLimit ∧
      after (exec (.txWrite 0x0000FFFF#32 1#16) State.reset) = some (started (.txWrite 0x0000FFFF#32 1#16)) ∧
      (txRun (movesOf [0x5A#8]) (started (.txWrite 0x0000FFFF#32 1#16))).1.tx.ph = .idle ∧
      (txRun (movesOf []) (started (.txRead 0x0000FFFF#32 1#16))).1.tx.ph = .idle ∧
      (txRun (movesOf [0x5A#8]) (started (.txBuild .read 0x0000FFFF#32 0#16 1#16 7#16))).1.tx.ph = .idle ∧
      [0x5A#8].length = (1#16).toNat ∧ State.reset.rx.ph = .hunt0 := by decide

/-- Every phase, with RXADDR 0; also for CommandByteStartsAFrameOrIsBad, AddressBytesAssembleLittleEndian,
LengthBytesPostTheHeader, PayloadByteIsPostedAndSummed and ChecksumIsComparedAtTheEnd. -/
theorem test_witness_HuntLooksForTheSyncMarker :
    ∀ ph ∈ rxPhases, (withDeframer { Rx.reset with ph := ph }).rx.ph = ph ∧
      (withDeframer { Rx.reset with ph := ph }).rx.addr = 0x00000000#32 := by decide

theorem test_witness_FrameRoundTrip :
    ([0xAA#8] : List Byte).length = (1#16).toNat ∧ ([] : List Byte).length = (0#16).toNat ∧
      State.reset.rx.ph = .hunt0 ∧ (withDeframer { Rx.reset with ph := .hunt1 }).rx.ph = .hunt1 := by decide

/-- Bytes without a marker, the empty list and a run of 0xAA before 0x55 among them. -/
theorem test_witness_HuntEndsExactlyAtTheMarker :
    (withDeframer { Rx.reset with ph := .hunt1 }).rx.ph.hunts = true ∧ State.reset.rx.ph.hunts = true ∧
      ¬ [0xAA#8, 0x55#8] <:+: ([] : List Byte) ∧ ¬ [0xAA#8, 0x55#8] <:+: [0x55#8, 0xAA#8] ∧
      ¬ [0xAA#8, 0x55#8] <:+: ([0xAA#8] ++ [0xAA#8] : List Byte) ∧
      (withDeframer { Rx.reset with ph := .k1 }).rx.ph = .k1 := by decide

/-- One payload byte and the checksum to come, so 0 to 3 bytes; and the three ways back to the hunt. -/
theorem test_witness_FrameBytesAreNeverAMarker :
    (rxPaying 0#16 1#16).idx < (rxPaying 0#16 1#16).pcnt ∧
      [0xAA#8, 0x55#8, 0x57#8].length ≤ (rxPaying 0#16 1#16).pcnt.toNat - (rxPaying 0#16 1#16).idx.toNat + 2 ∧
      (after (step (turn (.rxLine 0#8) (withDeframer { Rx.reset with ph := .k1 })))).map (·.rx.ph) = some .hunt0 ∧
      (after (step (turn .resetInput (withDeframer (rxPaying 0#16 1#16))))).map (·.rx.ph) = some .hunt0 ∧
      (after (step (hostTurn [.issue 0x6#96] (withDeframer (rxPaying 0#16 1#16))))).map (·.rx.ph) = some .hunt0 := by
  decide

/-- V-R15's text from HUNT0, and from HUNT1; 0x7F is the last ASCII byte. -/
theorem test_witness_AsciiTextNeverEndsTheHunt :
    (∀ b ∈ [0x4F#8, 0x4B#8, 0x0D#8, 0x7F#8], b.toNat < 0x80) ∧ State.reset.rx.ph = .hunt0 ∧
      ([0x4F#8, 0x4B#8] : List Byte).head? ≠ some 0x55#8 ∧
      (withDeframer { Rx.reset with ph := .hunt1 }).rx.ph = .hunt1 := by decide

theorem test_witness_PortReadsReturnAndChangeNothing :
    (hostTurn [.rdStat] State.reset).threads[0]? = some { prog := [.rdStat], reads := [] } ∧
      (hostTurn [.rdAcc] State.reset).threads[0]? = some { prog := [.rdAcc], reads := [] } ∧
      (hostTurn [.rdAcc] State.reset).sched = [.host 0] := by decide

/-- A take of the one word in EVLOG, and one that holds. -/
theorem test_witness_TakeRemovesTheHeadEvent :
    (hostTurn [.takeEv] State.reset).threads[0]? = some { prog := [.takeEv], reads := [] } ∧
      (after (step (hostTurn [.takeEv] { State.reset with evlog := [0x4103#64] }))).map (·.evlog) = some [] ∧
      (hostTurn [.takeEv] State.reset).evlog = [] := by decide

/-- A step that sets each sticky bit in turn; none is the reset input or CLR_STATUS. -/
theorem test_witness_StickyBitsHaveOneWriterEach :
    (after (step (hostTurn [.issue 0x000000000000000100000003#96] State.reset))).map (·.err.eAddr) = some true ∧
      (after (step (hostTurn [.issue 0x8#96] State.reset))).map (·.err.eIllop) = some true ∧
      (after (step (turn (.rxLine 1#8) (withDeframer { Rx.reset with ph := .k1 })))).map (·.err.eRxck) = some true ∧
      (after (step (turn (.rxLine 1#8) (withDeframer { Rx.reset with ph := .cmd })))).map (·.err.eRxcmd) =
        some true := by decide

/-- A turn of the TX line, and a thread that does not read STATUS. -/
theorem test_witness_StickyBitsSteerNothingElse :
    (∀ k turns t, (turn .txLine State.reset).sched = .host k :: turns →
        (turn .txLine State.reset).threads[k]? = some t → t.prog.head? ≠ some .rdStat) ∧
      (∀ k turns t, (hostTurn [.rdAcc] State.reset).sched = .host k :: turns →
        (hostTurn [.rdAcc] State.reset).threads[k]? = some t → t.prog.head? ≠ some .rdStat) := by
  constructor
  · intro k turns t h
    cases h
  · intro k turns t h ht
    cases h
    cases ht
    decide

theorem test_witness_ResetInputAbandonsBothFrames :
    (turn .resetInput (withSerializer txWaiting)).sched = [.resetInput] := by decide

/-- Accepted and held. -/
theorem test_witness_StepRunsTheDecodedWord :
    (hostTurn [.issue 0x4#96] State.reset).sched = [.host 0] ∧
      (hostTurn [.issue 0x4#96] State.reset).threads[0]? = some { prog := [.issue 0x4#96], reads := [] } ∧
      (hostTurn [.issue 0x4#96] State.reset).accepts (decode 0x4#96) = true ∧
      (hostTurn [.issue 0x4#96] (withSerializer txWaiting)).accepts (decode 0x4#96) = false := by decide

/-- A WRITE frame of one byte 0x5A whose last byte is due, and an event in EVLOG. -/
def atK1 : State :=
  { withSerializer { txWaiting with ph := .k1, idx := 1#16, acc := 0x005A#16, pbuf := 0x5A#8 } with
    evlog := [eventWord (.badCmd 0x41#8)]
    txlog := [0xAA#8, 0x55#8, 0x57#8, 0xFF#8, 0xFF#8, 0x00#8, 0x00#8, 0x01#8, 0x00#8, 0x5A#8, 0x5A#8]
    sched := [.txLine] }

theorem atK1_inv : atK1.Inv := by
  refine ⟨⟨by decide, by decide, by decide, by decide, by decide, by decide⟩,
    ⟨by decide, by decide, by decide, by decide, by decide, by decide, by decide⟩, ?_⟩
  intro w hw
  exact ⟨.badCmd 0x41#8, List.mem_singleton.mp hw⟩

theorem atK1_frameInv : atK1.FrameInv :=
  fun _ => ⟨[], [0x5A#8], by decide, by decide, by decide⟩

theorem test_witness_RegisterInvariantKept : atK1.Inv ∧ (after (step atK1)).map (·.tx.ph) = some .idle :=
  ⟨atK1_inv, by decide⟩

theorem test_witness_FramePrefixInvariantKept :
    atK1.Inv ∧ atK1.FrameInv ∧ (after (step atK1)).map (·.tx.ph) = some .idle :=
  ⟨atK1_inv, atK1_frameInv, by decide⟩

theorem test_witness_LastByteCompletesTheFrame : atK1.Inv ∧ atK1.FrameInv ∧ atK1.tx.ph = .k1 :=
  ⟨atK1_inv, atK1_frameInv, rfl⟩

theorem test_witness_TxAndRxStepsCommute :
    Instr.ckClear ≠ .rxReset ∧ Instr.ckClear ≠ .clrStatus ∧ (after (exec .ckClear State.reset)).isSome = true := by decide

/-- P5's state: its thread is held on line 2. -/
def p5 : State :=
  { withSerializer { txWaiting with addr := 0#32 } with
    threads := [{ prog := [.issue 0x000000050004#96, .put 0x77#8], reads := [] }]
    sched := [.host 0, .txLine] }

theorem test_witness_HeldThreadsHoldForEver :
    p5.tx.ph = .pay ∧ p5.tx.pbv = false ∧ (∀ t ∈ p5.threads, t.blocked) ∧
      ∀ turn ∈ p5.sched, turn = .txLine ∨ ∃ k, turn = .host k := by
  refine ⟨rfl, rfl, ?_, ?_⟩
  · intro t ht
    cases List.mem_singleton.mp ht
    exact .inr ⟨_, _, rfl, by decide⟩
  · intro t ht
    simp only [p5, List.mem_cons, List.not_mem_nil, or_false] at ht
    rcases ht with rfl | rfl
    · exact .inr ⟨0, rfl⟩
    · exact .inl rfl

/-- Steps that append to TXLOG and to EVLOG: TxlogGrowsByThePresentedByte and EvlogIsAQueue. -/
theorem test_witness_TxlogGrowsByThePresentedByte :
    (after (step (turn .txLine (withSerializer { txWaiting with ph := .s0 })))).map (·.txlog) = some [0xAA#8] ∧
      (after (step (turn (.rxLine 0x41#8) (withDeframer { Rx.reset with ph := .cmd })))).map (·.evlog) =
        some [0x0000000000004103#64] := by decide

/-- A step of the TX line, and an issued word that is no TX op. -/
theorem test_witness_AddrLimitIsAParameter :
    (after (step (turn .txLine (withSerializer { txWaiting with ph := .s0 })))).isSome = true ∧
      (∀ i u, (turn .txLine (withSerializer { txWaiting with ph := .s0 })).nextMove = .command i u →
        isTxOp i = false) ∧
      (after (step (hostTurn [.issue 0x1#96] State.reset))).isSome = true ∧
      (∀ i u, (hostTurn [.issue 0x1#96] State.reset).nextMove = .command i u → isTxOp i = false) := by
  refine ⟨by decide, ?_, by decide, ?_⟩
  · intro i u h
    cases h
  · intro i u h
    cases h
    rfl

end Sys2Proof.Tests
end

section
/-! Acceptance of command words (10_state.md R26): which words can hold, and what a held word does. -/

namespace Sys2Proof.Machine

/-! ## The TX ops when they are issued -/

/-- The TX ops are the three constructors of R74 that start a frame. -/
theorem isTxOp_iff (i : Instr) :
    isTxOp i = true ↔
      (∃ a l, i = .txWrite a l) ∨ (∃ a l, i = .txRead a l) ∨ (∃ c a l n k, i = .txBuild c a l n k) := by
  cases i <;> simp [isTxOp]

theorem exec_txWrite (a : Addr) (l : Half) (s : State) :
    exec (.txWrite a l) s = .next (s.txOp Config.cmdWrite a l l .acc 0#16) := rfl

theorem exec_txRead (a : Addr) (l : Half) (s : State) :
    exec (.txRead a l) s = .next (s.txOp Config.cmdRead a l 0#16 .fix 0#16) := rfl

theorem exec_txBuild (c : FrameCmd) (a : Addr) (l n k : Half) (s : State) :
    exec (.txBuild c a l n k) s = .next (s.txOp c.byte a l n .fix k) := rfl

/-- During a frame a TX op holds (R26). -/
theorem State.txOp_of_ne_idle {s : State} (h : s.tx.ph ≠ .idle)
    (cmd : Byte) (a : Addr) (l n : Half) (m : CkMode) (k : Half) : s.txOp cmd a l n m k = s := by
  rcases State.txOp_cases (rfl : s.txOp cmd a l n m k = _) with ⟨-, hs⟩ | ⟨hi, -⟩ | ⟨hi, -⟩
  · exact hs
  · exact absurd hi h
  · exact absurd hi h

/-! ## Words that hold -/

/-- Only a TX op during a frame is not accepted (R26). -/
theorem State.accepts_eq_false_iff (i : Instr) (s : State) :
    s.accepts i = false ↔ isTxOp i = true ∧ s.tx.ph ≠ .idle := by
  rw [← Bool.not_eq_true, State.accepts_iff, Classical.not_imp]

/-- A word that holds changes nothing (R10). -/
theorem exec_of_not_accepts {i : Instr} {s : State} (h : s.accepts i = false) : exec i s = .next s := by
  obtain ⟨htx, hph⟩ := (s.accepts_eq_false_iff i).mp h
  rcases (isTxOp_iff i).mp htx with ⟨a, l, rfl⟩ | ⟨a, l, rfl⟩ | ⟨c, a, l, n, k, rfl⟩
  · rw [exec_txWrite, State.txOp_of_ne_idle hph]
  · rw [exec_txRead, State.txOp_of_ne_idle hph]
  · rw [exec_txBuild, State.txOp_of_ne_idle hph]

/-- Settles O17: `accepts` holds back exactly the TX ops outside IDLE, and a word held back changes nothing. -/
theorem txOpHoldsUnlessIdle : Obligations.TxOpHoldsUnlessIdle := by
  intro s i
  refine ⟨?_, exec_of_not_accepts⟩
  rw [State.accepts_iff, isTxOp_iff]

end Sys2Proof.Machine
end

section
/-! Command words as instructions (30_encoding.md R73, R74, R92): what decoding gives for each value of OP. -/

namespace Sys2Proof.Machine

/-! ## The decoder, one equation per OP (R74) -/

section
variable {w : CmdWord}

theorem decode_nop (h : opField w = 0x0#4) : decode w = .nop := by
  simp only [decode, h]
theorem decode_ckClear (h : opField w = 0x1#4) : decode w = .ckClear := by
  simp only [decode, h]
theorem decode_ckAdd (h : opField w = 0x2#4) : decode w = .ckAdd (dataField w) := by
  simp only [decode, h]
theorem decode_txWrite (h : opField w = 0x3#4) : decode w = .txWrite (addrField w) (lenField w) := by
  simp only [decode, h]
theorem decode_txRead (h : opField w = 0x4#4) : decode w = .txRead (addrField w) (lenField w) := by
  simp only [decode, h]
theorem decode_txBuild (h : opField w = 0x5#4) :
    decode w = .txBuild (.ofBit (cselField w)) (addrField w) (lenField w) (pcntField w) (ckvField w) := by
  simp only [decode, h]
theorem decode_rxReset (h : opField w = 0x6#4) : decode w = .rxReset := by
  simp only [decode, h]
theorem decode_clrStatus (h : opField w = 0x7#4) : decode w = .clrStatus := by
  simp only [decode, h]

/-- The reserved half of the op values decodes to the op value itself (R75). -/
theorem decode_reserved (h : 0x8#4 ≤ opField w) : decode w = .reserved (opField w) := by
  unfold decode
  split
  case h_9 => rfl
  all_goals
    rename_i hop
    rw [hop] at h
    exact absurd h (by decide)

end

/-- The nine rows of the opcode table cover all sixteen op values (R74). -/
theorem op_rows : ∀ op : BitVec 4,
    op = 0x0#4 ∨ op = 0x1#4 ∨ op = 0x2#4 ∨ op = 0x3#4 ∨ op = 0x4#4 ∨ op = 0x5#4 ∨ op = 0x6#4 ∨ op = 0x7#4 ∨
      0x8#4 ≤ op := by
  decide

/-- Settles O4: the equations of the decoder, one for each row. -/
theorem decodeSelectsByOpAlone : Obligations.DecodeSelectsByOpAlone := fun _ =>
  ⟨decode_nop, decode_ckClear, decode_ckAdd, decode_txWrite, decode_txRead, decode_txBuild, decode_rxReset,
    decode_clrStatus, decode_reserved⟩

/-! ## Fields that an op does not read (R73) -/

/-- No instruction stops the block: every arm of `exec` gives a next state (R201). -/
theorem exec_total (i : Instr) (s : State) : ∃ t, exec i s = .next t := by
  cases i <;> exact ⟨_, rfl⟩

/-- Words that agree on OP and on the fields their op reads are the same instruction (R73). -/
theorem decode_congr {w w' : CmdWord} (hop : opField w = opField w')
    (hdata : opField w = 0x2#4 → dataField w = dataField w')
    (htx : opField w = 0x3#4 ∨ opField w = 0x4#4 ∨ opField w = 0x5#4 →
      addrField w = addrField w' ∧ lenField w = lenField w')
    (hbuild : opField w = 0x5#4 → cselField w = cselField w' ∧ pcntField w = pcntField w' ∧ ckvField w = ckvField w') :
    decode w = decode w' := by
  rcases op_rows (opField w) with h | h | h | h | h | h | h | h | h <;> have h' := hop ▸ h
  · rw [decode_nop h, decode_nop h']
  · rw [decode_ckClear h, decode_ckClear h']
  · rw [decode_ckAdd h, decode_ckAdd h', hdata h]
  · obtain ⟨haddr, hlen⟩ := htx (.inl h)
    rw [decode_txWrite h, decode_txWrite h', haddr, hlen]
  · obtain ⟨haddr, hlen⟩ := htx (.inr (.inl h))
    rw [decode_txRead h, decode_txRead h', haddr, hlen]
  · obtain ⟨haddr, hlen⟩ := htx (.inr (.inr h))
    obtain ⟨hcsel, hpcnt, hckv⟩ := hbuild h
    rw [decode_txBuild h, decode_txBuild h', haddr, hlen, hcsel, hpcnt, hckv]
  · rw [decode_rxReset h, decode_rxReset h']
  · rw [decode_clrStatus h, decode_clrStatus h']
  · rw [decode_reserved h, decode_reserved h', hop]

/-- Settles O3: both words decode to one instruction, and no instruction stops the block. -/
theorem unreadFieldsHaveNoEffect : Obligations.UnreadFieldsHaveNoEffect := by
  intro w w' hop hdata htx hbuild
  have heq := decode_congr hop hdata htx hbuild
  refine ⟨heq, fun s => ?_⟩
  obtain ⟨t, ht⟩ := exec_total (decode w) s
  exact ⟨t, ht, heq ▸ ht⟩

end Sys2Proof.Machine
end

section
/-! Event words and frames (30_encoding.md R80, R88): where each field of an event word and each byte of a frame
stands. -/

namespace Sys2Proof.Machine

/-! ## Event words (R88) -/

/-- A group of fields is worth its upper part, moved past the width of the lower, plus the lower part. -/
theorem toNat_append_eq_mul_add {m n : Nat} (x : BitVec m) (y : BitVec n) :
    (x ++ y).toNat = x.toNat * 2 ^ n + y.toNat := by
  rw [BitVec.toNat_append, ← Nat.shiftLeft_add_eq_or_of_lt y.isLt, Nat.shiftLeft_eq]

theorem eventWord_hdr_toNat (c : Byte) (a : Addr) (l : Half) :
    (eventWord (.hdr c a l)).toNat = l.toNat * 2 ^ 48 + a.toNat * 2 ^ 16 + c.toNat * 2 ^ 8 + 0x0 := by
  simp only [eventWord, toNat_append_eq_mul_add, BitVec.toNat_ofNat]
  omega

theorem eventWord_pay_toNat (b : Byte) (n : Half) :
    (eventWord (.pay b n)).toNat = n.toNat * 2 ^ 16 + b.toNat * 2 ^ 8 + 0x1 := by
  simp only [eventWord, toNat_append_eq_mul_add, BitVec.toNat_ofNat]
  omega

theorem eventWord_endFrame_toNat (ok : Bool) (r c : Half) :
    (eventWord (.endFrame ok r c)).toNat =
      c.toNat * 2 ^ 32 + r.toNat * 2 ^ 16 + (if ok then 1 else 0) * 2 ^ 4 + 0x2 := by
  have hok : (BitVec.ofBool ok).toNat = if ok then 1 else 0 := by cases ok <;> rfl
  simp only [eventWord, toNat_append_eq_mul_add, BitVec.toNat_ofNat, hok]
  omega

theorem eventWord_badCmd_toNat (b : Byte) : (eventWord (.badCmd b)).toNat = b.toNat * 2 ^ 8 + 0x3 := by
  simp only [eventWord, toNat_append_eq_mul_add, BitVec.toNat_ofNat]
  omega

/-- One delivered byte posts at most one event, and nothing but the word of an event (R204). -/
theorem State.rxLineStep_evlog_cases (b : Byte) (s : State) :
    (s.rxLineStep b).evlog = s.evlog ∨ ∃ e, (s.rxLineStep b).evlog = s.evlog ++ [eventWord e] := by
  rw [s.rxLineStep_evlog b]
  cases (rxReceive b s.rx).event with
  | none => exact .inl (List.append_nil _)
  | some e => exact .inr ⟨e, rfl⟩

/-- Settles O7: the value of each kind of event word, and what an RX line step posts. -/
theorem eventWordLayout : Obligations.EventWordLayout :=
  ⟨eventWord_hdr_toNat, eventWord_pay_toNat, eventWord_endFrame_toNat, eventWord_badCmd_toNat,
    State.rxLineStep_evlog_cases⟩

/-! ## The frame function (R80) -/

/-- The HDR_BYTES bytes of a frame before its payload (R5, R80). -/
def frameHeader (c : Byte) (a : Addr) (l : Half) : List Byte :=
  [Config.sync0, Config.sync1, c] ++ le32 a ++ le16 l

@[simp] theorem frameHeader_length (c : Byte) (a : Addr) (l : Half) : (frameHeader c a l).length = 9 := rfl

/-- A frame is its header, its payload and its checksum field, in this order. -/
theorem frame_eq_header_payload_trailer (c : Byte) (a : Addr) (l : Half) (p : List Byte) (k : Half) :
    frame c a l p k = frameHeader c a l ++ (p ++ le16 k) := by
  rw [← List.append_assoc]
  rfl

@[simp] theorem le16_length (v : Half) : (le16 v).length = 2 := rfl

theorem frame_length (c : Byte) (a : Addr) (l : Half) (p : List Byte) (k : Half) :
    (frame c a l p k).length = 11 + p.length := by
  simp only [frame_eq_header_payload_trailer, List.length_append, frameHeader_length, le16_length]
  omega

theorem frame_take_header (c : Byte) (a : Addr) (l : Half) (p : List Byte) (k : Half) :
    (frame c a l p k).take 9 = frameHeader c a l := by
  rw [frame_eq_header_payload_trailer, List.take_left' (frameHeader_length c a l)]

theorem frame_drop_header (c : Byte) (a : Addr) (l : Half) (p : List Byte) (k : Half) :
    (frame c a l p k).drop 9 = p ++ le16 k := by
  rw [frame_eq_header_payload_trailer, List.drop_left' (frameHeader_length c a l)]

/-- Settles O8: header, payload and checksum field are cut out of the frame at their offsets. -/
theorem frameBytesByOffset : Obligations.FrameBytesByOffset := by
  intro c a l k p
  refine ⟨frame_length c a l p k, frame_take_header c a l p k, ?payload, ?trailer⟩
  case payload => rw [frame_drop_header, List.take_left]
  case trailer =>
    rw [← List.drop_drop, frame_drop_header, List.drop_left]
    rfl

end Sys2Proof.Machine
end

section
/-! The host accumulator's ops CK_CLEAR and CK_ADD (41_checksum.md R100, R104, R105). -/

namespace Sys2Proof.Machine

/-- An op that is no TX op never holds (R26). -/
theorem State.accepts_of_not_isTxOp {i : Instr} (h : isTxOp i = false) (s : State) : s.accepts i = true :=
  (s.accepts_iff i).mpr fun htx => absurd (h.symm.trans htx) Bool.false_ne_true

theorem exec_ckClear (s : State) : exec .ckClear s = .next { s with hacc := 0x0000#16 } := rfl

theorem exec_ckAdd (d : Byte) (s : State) : exec (.ckAdd d) s = .next { s with hacc := accAdd s.hacc d } := rfl

/-! ## AccAdd as a sum of numbers -/

/-- A byte keeps its value when it is extended to 16 bits (R8). -/
theorem zext16_toNat (b : Byte) : (zext16 b).toNat = b.toNat :=
  BitVec.toNat_setWidth_of_le (by decide)

/-- AccAdd adds modulo 65536, the carry discarded (R100). -/
theorem accAdd_toNat (acc : Half) (b : Byte) : (accAdd acc b).toNat = (acc.toNat + b.toNat) % 65536 := by
  rw [accAdd, BitVec.toNat_add, zext16_toNat]

theorem accAdd_eq_ofNat (acc : Half) (b : Byte) :
    accAdd acc b = BitVec.ofNat 16 ((acc.toNat + b.toNat) % 65536) := by
  rw [← accAdd_toNat, BitVec.ofNat_toNat, BitVec.setWidth_eq]

/-! ## The two ops -/

/-- Settles O9: the row of OP 0x1, its word, and an effect that is the write of HACC alone. -/
theorem ckClearClearsHacc : Obligations.CkClearClearsHacc := by
  refine ⟨fun _ => decode_ckClear, ?word, fun s => ⟨s.accepts_of_not_isTxOp rfl, exec_ckClear s⟩⟩
  case word => decide

/-- Settles O10: the row of OP 0x2, the word of one CK_ADD, and a write of HACC alone whose value is the sum
modulo 65536. -/
theorem ckAddAddsItsByte : Obligations.CkAddAddsItsByte := by
  refine ⟨fun _ => decode_ckAdd, ?word, fun d s => ⟨s.accepts_of_not_isTxOp rfl, ?effect⟩⟩
  case word => decide
  case effect => rw [exec_ckAdd, accAdd_eq_ofNat]

end Sys2Proof.Machine
end

section
/-! The steps of the TX line (42_transmit.md R126, R127, R129): the successor of each phase, and the payload byte. -/

namespace Sys2Proof.Machine

/-! ## The successor of each phase (R127) -/

section
variable {t : Tx}

theorem txAdvance_ph_s0 (h : t.ph = .s0) : (txAdvance t).ph = .s1 := by simp only [txAdvance, h]
theorem txAdvance_ph_s1 (h : t.ph = .s1) : (txAdvance t).ph = .cmd := by simp only [txAdvance, h]
theorem txAdvance_ph_cmd (h : t.ph = .cmd) : (txAdvance t).ph = .a0 := by simp only [txAdvance, h]
theorem txAdvance_ph_a0 (h : t.ph = .a0) : (txAdvance t).ph = .a1 := by simp only [txAdvance, h]
theorem txAdvance_ph_a1 (h : t.ph = .a1) : (txAdvance t).ph = .a2 := by simp only [txAdvance, h]
theorem txAdvance_ph_a2 (h : t.ph = .a2) : (txAdvance t).ph = .a3 := by simp only [txAdvance, h]
theorem txAdvance_ph_a3 (h : t.ph = .a3) : (txAdvance t).ph = .l0 := by simp only [txAdvance, h]
theorem txAdvance_ph_l0 (h : t.ph = .l0) : (txAdvance t).ph = .l1 := by simp only [txAdvance, h]
theorem txAdvance_ph_l1 (h : t.ph = .l1) : (txAdvance t).ph = if t.pcnt = 0x0000#16 then .k0 else .pay := by
  simp only [txAdvance, h]
theorem txAdvance_ph_k0 (h : t.ph = .k0) : (txAdvance t).ph = .k1 := by simp only [txAdvance, h]
theorem txAdvance_ph_k1 (h : t.ph = .k1) : (txAdvance t).ph = .idle := by simp only [txAdvance, h]

/-- In PAY advancing is the sending of the payload byte (R129). -/
theorem txAdvance_pay (h : t.ph = .pay) : txAdvance t = txSendPayload t := by simp only [txAdvance, h]

end

/-- Outside PAY advancing writes TXPH alone (R127). -/
theorem txAdvance_eq_of_ne_pay {t : Tx} (h : t.ph ≠ .pay) : txAdvance t = { t with ph := (txAdvance t).ph } := by
  obtain ⟨hcmd, haddr, hlen, hpcnt, hckm, hckv, hpbuf⟩ := txAdvance_latches t
  obtain ⟨hidx, hacc, hpbv⟩ := txAdvance_of_ne_pay t h
  exact Tx.ext rfl hcmd haddr hlen hpcnt hidx hckm hckv hacc hpbuf hpbv

/-! ## The byte presented (R126) -/

/-- Outside IDLE and PAY the serializer always has a byte for the line. -/
theorem exists_txPresented_eq_some {t : Tx} (hidle : t.ph ≠ .idle) (hpay : t.ph ≠ .pay) :
    ∃ b, txPresented t = some b := by
  refine Option.ne_none_iff_exists'.mp fun hnone => ?_
  rcases (txPresented_eq_none t).mp hnone with h | ⟨h, -⟩
  · exact hidle h
  · exact hpay h

theorem txPresented_s0 {t : Tx} (h : t.ph = .s0) : txPresented t = some 0xAA#8 := by
  simp only [txPresented, h, Config.sync0]

theorem txPresented_pay_held {t : Tx} (hph : t.ph = .pay) (hpbv : t.pbv = true) : txPresented t = some t.pbuf := by
  simp only [txPresented, hph, hpbv, if_true]

theorem txCk_fix {t : Tx} (h : t.ckm = .fix) : txCk t = t.ckv := by
  simp only [txCk, h]

/-- TXACC reaches the TX port through the checksum field alone, which in mode FIX is TXCKV. -/
theorem txPresented_acc_of_fix {t : Tx} (h : t.ckm = .fix) (acc : Half) :
    txPresented { t with acc := acc } = txPresented t := by
  have hck : txCk { t with acc := acc } = txCk t := Eq.trans (txCk_fix h) (txCk_fix h).symm
  simp only [txPresented, hck]

/-! ## The TX line step, where a byte is presented and where none is (R54) -/

theorem State.txLineStep_of_presented {s : State} {b : Byte} (h : txPresented s.tx = some b) :
    s.txLineStep = { s with tx := txAdvance s.tx, txlog := s.txlog ++ [b] } := by
  rcases s.txLineStep_cases with ⟨hnone, -⟩ | ⟨b', hb', hstep⟩
  · rw [hnone] at h
    cases h
  · obtain rfl : b' = b := Option.some.inj (hb'.symm.trans h)
    exact hstep

theorem State.txLineStep_of_silent {s : State} (h : txPresented s.tx = none) : s.txLineStep = s := by
  rcases s.txLineStep_cases with ⟨-, hstep⟩ | ⟨b, hb, -⟩
  · exact hstep
  · rw [h] at hb
    cases hb

/-! ## The steps of R127 and R129 -/

/-- Settles O20: the phase reached is the one that advancing gives, and TXPH is all that advancing writes. -/
theorem txLineStepMovesToTheSuccessor : Obligations.TxLineStepMovesToTheSuccessor := by
  intro s hidle hpay
  obtain ⟨b, hb⟩ := exists_txPresented_eq_some hidle hpay
  refine ⟨b, (txAdvance s.tx).ph, hb, ?step, txAdvance_ph_s0, txAdvance_ph_s1, txAdvance_ph_cmd, txAdvance_ph_a0,
    txAdvance_ph_a1, txAdvance_ph_a2, txAdvance_ph_a3, txAdvance_ph_l0, txAdvance_ph_l1, txAdvance_ph_k0,
    txAdvance_ph_k1⟩
  case step => rw [State.txLineStep_of_presented hb, ← txAdvance_eq_of_ne_pay hpay]

/-- Settles O21: the held byte is presented and `txSendPayload` counts it; an empty PBUF presents nothing; and mode FIX
does not read TXACC. -/
theorem txLineStepSendsThePayloadByte : Obligations.TxLineStepSendsThePayloadByte := by
  refine ⟨fun s hph hpbv => ?held, fun s hph hpbv => ?empty, fun t acc h => txPresented_acc_of_fix h acc⟩
  case held =>
    rw [State.txLineStep_of_presented (txPresented_pay_held hph hpbv), txAdvance_pay hph, txSendPayload,
      accAdd_eq_ofNat]
  case empty => exact State.txLineStep_of_silent ((txPresented_eq_none s.tx).mpr (.inr ⟨hph, hpbv⟩))

end Sys2Proof.Machine
end

section
/-! Acceptance of a TX op (42_transmit.md R121 to R125): the address check, and the frame that starts when it
passes. -/

namespace Sys2Proof.Machine

/-! ## The two outcomes at IDLE -/

/-- At IDLE an address above ADDR_LIMIT is refused with E_ADDR (R122). -/
theorem State.txOp_of_limit_lt {s : State} {a : Addr} (hidle : s.tx.ph = .idle) (ha : s.addrLimit < a)
    (cmd : Byte) (l n : Half) (m : CkMode) (k : Half) :
    s.txOp cmd a l n m k = { s with err := { s.err with eAddr := true } } := by
  rcases State.txOp_cases (rfl : s.txOp cmd a l n m k = _) with ⟨hph, -⟩ | ⟨-, -, hs⟩ | ⟨-, hle, -⟩
  · exact absurd hidle hph
  · exact hs
  · exact absurd ha (BitVec.not_lt.mpr hle)

/-- At IDLE an address within ADDR_LIMIT starts the frame (R121). -/
theorem State.txOp_of_le_limit {s : State} {a : Addr} (hidle : s.tx.ph = .idle) (ha : a ≤ s.addrLimit)
    (cmd : Byte) (l n : Half) (m : CkMode) (k : Half) :
    s.txOp cmd a l n m k = s.withTx (txStart cmd a l n m k s.tx) := by
  rcases State.txOp_cases (rfl : s.txOp cmd a l n m k = _) with ⟨hph, -⟩ | ⟨-, hlt, -⟩ | ⟨-, -, hs⟩
  · exact absurd hidle hph
  · exact absurd hlt (BitVec.not_lt.mpr ha)
  · exact hs

/-- Each of the three TX ops is the shared acceptance step, on its own ADDR and LEN (R123 to R125). -/
theorem exec_eq_txOp {i : Instr} {a : Addr} {l n k : Half} {c : FrameCmd}
    (hi : i = .txWrite a l ∨ i = .txRead a l ∨ i = .txBuild c a l n k) (s : State) :
    ∃ cmd pcnt ckm ckv, exec i s = .next (s.txOp cmd a l pcnt ckm ckv) := by
  rcases hi with rfl | rfl | rfl
  · exact ⟨_, _, _, _, exec_txWrite a l s⟩
  · exact ⟨_, _, _, _, exec_txRead a l s⟩
  · exact ⟨_, _, _, _, exec_txBuild c a l n k s⟩

/-- Settles O16: the three ops share one acceptance step, which the address check splits in two. -/
theorem txOpChecksItsAddressFirst : Obligations.TxOpChecksItsAddressFirst := by
  refine ⟨rfl, fun s a l n k c i hidle hi => ?_⟩
  obtain ⟨cmd, pcnt, ckm, ckv, hexec⟩ := exec_eq_txOp hi s
  rw [hexec]
  split
  next hgt => rw [State.txOp_of_limit_lt hidle (BitVec.lt_def.mpr hgt)]
  next hle =>
    have ha : a ≤ s.addrLimit := BitVec.le_def.mpr (Nat.not_lt.mp hle)
    exact ⟨_, congrArg _ (State.txOp_of_le_limit hidle ha ..), rfl, rfl, rfl⟩

/-! ## The start of a frame -/

/-- CSEL chooses between the two command bytes of R82. -/
theorem frameCmd_byte_eq_ite (c : FrameCmd) : c.byte = if c = .write then 0x57#8 else 0x52#8 := by
  cases c <;> rfl

/-- Settles O15: each op starts its frame with the values of its own rule, and S0 presents 0xAA. -/
theorem txOpStartsItsFrame : Obligations.TxOpStartsItsFrame := by
  intro s a l n k c hidle ha
  refine ⟨?write, ?read, ?build, fun t ht => ?firstByte⟩
  case write =>
    rw [exec_txWrite, State.txOp_of_le_limit hidle ha]
    rfl
  case read =>
    rw [exec_txRead, State.txOp_of_le_limit hidle ha]
    rfl
  case build =>
    rw [exec_txBuild, State.txOp_of_le_limit hidle ha, frameCmd_byte_eq_ite]
    rfl
  case firstByte => rw [State.txLineStep_of_presented (txPresented_s0 ht)]

end Sys2Proof.Machine
end

section
/-! One delivered byte (43_receive.md R152 to R159): what it makes of the deframer's registers in each phase, and what
of the block. -/

namespace Sys2Proof.Machine

/-! ## The deframer's registers, one equation per phase -/

section
variable {r : Rx} (b : Byte)

theorem rxReceive_hunt0 (h : r.ph = .hunt0) : rxReceive b r = ⟨{ r with ph := huntNext b }, none, none⟩ := by
  simp only [rxReceive, h]
theorem rxReceive_hunt1 (h : r.ph = .hunt1) :
    rxReceive b r =
      ⟨{ r with ph := if b = Config.sync1 then .cmd else if b = Config.sync0 then .hunt1 else .hunt0 },
        none, none⟩ := by
  simp only [rxReceive, h, rxSecondSync]
theorem rxReceive_cmd_start (h : r.ph = .cmd) (hb : b = Config.cmdWrite ∨ b = Config.cmdRead) :
    rxReceive b r =
      ⟨{ r with cmd := b, addr := 0#32, len := 0#16, idx := 0#16, acc := 0#16, ph := .a0 }, none, none⟩ := by
  simp only [rxReceive, h, rxCommand, if_pos hb]
theorem rxReceive_cmd_bad (h : r.ph = .cmd) (hb : ¬ (b = Config.cmdWrite ∨ b = Config.cmdRead)) :
    rxReceive b r = ⟨{ r with ph := huntNext b }, some (.badCmd b), some (.rxBadCommand b)⟩ := by
  simp only [rxReceive, h, rxCommand, if_neg hb]
theorem rxReceive_a0 (h : r.ph = .a0) :
    rxReceive b r = ⟨{ r with addr := r.addr ||| zext32 b, ph := .a1 }, none, none⟩ := by
  simp only [rxReceive, h, rxAddress, Nat.mul_zero, BitVec.shiftLeft_zero]
theorem rxReceive_a1 (h : r.ph = .a1) :
    rxReceive b r = ⟨{ r with addr := r.addr ||| (zext32 b <<< 8), ph := .a2 }, none, none⟩ := by
  simp only [rxReceive, h, rxAddress, Nat.mul_one]
theorem rxReceive_a2 (h : r.ph = .a2) :
    rxReceive b r = ⟨{ r with addr := r.addr ||| (zext32 b <<< 16), ph := .a3 }, none, none⟩ := by
  simp only [rxReceive, h, rxAddress, Nat.reduceMul]
theorem rxReceive_a3 (h : r.ph = .a3) :
    rxReceive b r = ⟨{ r with addr := r.addr ||| (zext32 b <<< 24), ph := .l0 }, none, none⟩ := by
  simp only [rxReceive, h, rxAddress, Nat.reduceMul]
theorem rxReceive_l0 (h : r.ph = .l0) : rxReceive b r = ⟨{ r with len := zext16 b, ph := .l1 }, none, none⟩ := by
  simp only [rxReceive, h]
theorem rxReceive_l1 (h : r.ph = .l1) : rxReceive b r = rxHeaderEnd b r := by simp only [rxReceive, h]
theorem rxReceive_pay (h : r.ph = .pay) : rxReceive b r = rxPayload b r := by simp only [rxReceive, h]
theorem rxReceive_k0 (h : r.ph = .k0) : rxReceive b r = ⟨{ r with ckl := b, ph := .k1 }, none, none⟩ := by
  simp only [rxReceive, h]
theorem rxReceive_k1 (h : r.ph = .k1) : rxReceive b r = rxCheck b r := by simp only [rxReceive, h]

end

/-! ## The RX line step, by what the deframer posts and raises -/

section
variable {b : Byte} {s : State} {r : Rx}

theorem State.rxLineStep_of_silent (h : rxReceive b s.rx = ⟨r, none, none⟩) : s.rxLineStep b = { s with rx := r } := by
  rw [s.rxLineStep_eq b, h, eventWords, Sticky.markAny, List.append_nil]

theorem State.rxLineStep_of_event {e : Event} (h : rxReceive b s.rx = ⟨r, some e, none⟩) :
    s.rxLineStep b = { s with rx := r, evlog := s.evlog ++ [eventWord e] } := by
  rw [s.rxLineStep_eq b, h, eventWords, Sticky.markAny]

theorem State.rxLineStep_of_error {e : Event} {x : CodecError} (h : rxReceive b s.rx = ⟨r, some e, some x⟩) :
    s.rxLineStep b = { s with rx := r, evlog := s.evlog ++ [eventWord e], err := s.err.mark x } := by
  rw [s.rxLineStep_eq b, h, eventWords, Sticky.markAny]

end

/-! ## The RX line step, phase by phase -/

section
variable {s : State} (b : Byte)

theorem State.rxLineStep_hunt0 (h : s.rx.ph = .hunt0) :
    s.rxLineStep b = { s with rx := { s.rx with ph := if b = 0xAA#8 then .hunt1 else .hunt0 } } :=
  State.rxLineStep_of_silent (rxReceive_hunt0 b h)

theorem State.rxLineStep_hunt1 (h : s.rx.ph = .hunt1) :
    s.rxLineStep b =
      { s with rx := { s.rx with ph := if b = 0x55#8 then .cmd else if b = 0xAA#8 then .hunt1 else .hunt0 } } :=
  State.rxLineStep_of_silent (rxReceive_hunt1 b h)

theorem State.rxLineStep_cmd_start (h : s.rx.ph = .cmd) (hb : b = 0x57#8 ∨ b = 0x52#8) :
    s.rxLineStep b =
      { s with rx := { s.rx with cmd := b, addr := 0#32, len := 0#16, idx := 0#16, acc := 0#16, ph := .a0 } } :=
  State.rxLineStep_of_silent (rxReceive_cmd_start b h hb)

theorem State.rxLineStep_cmd_bad (h : s.rx.ph = .cmd) (hb : ¬ (b = 0x57#8 ∨ b = 0x52#8)) :
    s.rxLineStep b = { s with
      rx := { s.rx with ph := if b = 0xAA#8 then .hunt1 else .hunt0 }
      evlog := s.evlog ++ [eventWord (.badCmd b)]
      err := { s.err with eRxcmd := true } } :=
  State.rxLineStep_of_error (rxReceive_cmd_bad b h hb)

theorem State.rxLineStep_a0 (h : s.rx.ph = .a0) :
    s.rxLineStep b = { s with rx := { s.rx with addr := s.rx.addr ||| b.setWidth 32, ph := .a1 } } :=
  State.rxLineStep_of_silent (rxReceive_a0 b h)

theorem State.rxLineStep_a1 (h : s.rx.ph = .a1) :
    s.rxLineStep b = { s with rx := { s.rx with addr := s.rx.addr ||| (b.setWidth 32 <<< 8), ph := .a2 } } :=
  State.rxLineStep_of_silent (rxReceive_a1 b h)

theorem State.rxLineStep_a2 (h : s.rx.ph = .a2) :
    s.rxLineStep b = { s with rx := { s.rx with addr := s.rx.addr ||| (b.setWidth 32 <<< 16), ph := .a3 } } :=
  State.rxLineStep_of_silent (rxReceive_a2 b h)

theorem State.rxLineStep_a3 (h : s.rx.ph = .a3) :
    s.rxLineStep b = { s with rx := { s.rx with addr := s.rx.addr ||| (b.setWidth 32 <<< 24), ph := .l0 } } :=
  State.rxLineStep_of_silent (rxReceive_a3 b h)

theorem State.rxLineStep_l0 (h : s.rx.ph = .l0) :
    s.rxLineStep b = { s with rx := { s.rx with len := b.setWidth 16, ph := .l1 } } :=
  State.rxLineStep_of_silent (rxReceive_l0 b h)

theorem State.rxLineStep_l1 (h : s.rx.ph = .l1) {len pcnt : Half} (hlen : len = s.rx.len ||| (b.setWidth 16 <<< 8))
    (hpcnt : pcnt = rxPayloadCount s.rx.cmd len) :
    s.rxLineStep b = { s with
      rx := { s.rx with len := len, pcnt := pcnt, ph := if pcnt = 0#16 then .k0 else .pay }
      evlog := s.evlog ++ [eventWord (.hdr s.rx.cmd s.rx.addr len)] } := by
  subst hpcnt hlen
  exact State.rxLineStep_of_event (rxReceive_l1 b h)

theorem State.rxLineStep_pay (h : s.rx.ph = .pay) :
    s.rxLineStep b = { s with
      rx := { s.rx with
        acc := accAdd s.rx.acc b
        idx := s.rx.idx + 1#16
        ph := if s.rx.idx + 1#16 = s.rx.pcnt then .k0 else .pay }
      evlog := s.evlog ++ [eventWord (.pay b s.rx.idx)] } :=
  State.rxLineStep_of_event (rxReceive_pay b h)

theorem State.rxLineStep_k0 (h : s.rx.ph = .k0) :
    s.rxLineStep b = { s with rx := { s.rx with ckl := b, ph := .k1 } } :=
  State.rxLineStep_of_silent (rxReceive_k0 b h)

theorem State.rxLineStep_k1 (h : s.rx.ph = .k1) {ckrx : Half}
    (hck : ckrx = s.rx.ckl.setWidth 16 ||| (b.setWidth 16 <<< 8)) :
    s.rxLineStep b = { s with
      rx := { s.rx with ph := .hunt0 }
      evlog := s.evlog ++ [eventWord (.endFrame (decide (ckrx = s.rx.acc)) ckrx s.rx.acc)]
      err := if ckrx = s.rx.acc then s.err else { s.err with eRxck := true } } := by
  subst hck
  rw [s.rxLineStep_eq b, rxReceive_k1 b h, rxCheck]
  simp only [apply_ite s.err.markAny]
  rfl

end

/-! ## The hunt, the command byte and the payload -/

/-- Settles O26: the two hunting phases, one equation each. -/
theorem huntLooksForTheSyncMarker : Obligations.HuntLooksForTheSyncMarker :=
  fun b _ => ⟨State.rxLineStep_hunt0 b, State.rxLineStep_hunt1 b⟩

/-- Settles O27: the CMD phase splits on whether the byte is one of the two commands. -/
theorem commandByteStartsAFrameOrIsBad : Obligations.CommandByteStartsAFrameOrIsBad := by
  intro b s h
  split
  next hstart => exact State.rxLineStep_cmd_start b h hstart
  next hbad => exact State.rxLineStep_cmd_bad b h hbad

/-- Settles O30: the PAY phase, with RXACC's sum written as a number modulo 65536. -/
theorem payloadByteIsPostedAndSummed : Obligations.PayloadByteIsPostedAndSummed := by
  intro b s h
  rw [State.rxLineStep_pay b h, accAdd_eq_ofNat]

end Sys2Proof.Machine
end

section
/-! Fields that arrive low byte first (43_receive.md R155, R156, R158, R159): the address, the length and the checksum
received are the values sent. -/

namespace Sys2Proof.Machine

/-! ## Little-endian assembly (R9) -/

/-- The low `n` bits of a value, with the byte above them put in its place, are its low `n + 8` bits. -/
theorem low_bits_or_next_byte {w : Nat} (v : BitVec w) (n : Nat) :
    (v.extractLsb' 0 n).setWidth w ||| ((v.extractLsb' n 8).setWidth w <<< n) =
      (v.extractLsb' 0 (n + 8)).setWidth w := by
  ext i hi
  simp only [BitVec.getElem_or, BitVec.getElem_setWidth, BitVec.getElem_shiftLeft, BitVec.getLsbD_extractLsb']
  by_cases hlow : i < n
  · simp [hlow, Nat.lt_add_right 8 hlow]
  · have hsub : i - n < w := by omega
    have hbyte : i - n < 8 ↔ i < n + 8 := by omega
    simp [hlow, hbyte, Nat.add_sub_cancel' (Nat.not_lt.mp hlow)]

theorem extractLsb'_zero_self {w : Nat} (v : BitVec w) : (v.extractLsb' 0 w).setWidth w = v := by
  rw [BitVec.extractLsb'_eq_self, BitVec.setWidth_eq]

theorem half_of_le16_bytes (v : Half) :
    (v.extractLsb' 0 8).setWidth 16 ||| ((v.extractLsb' 8 8).setWidth 16 <<< 8) = v := by
  rw [low_bits_or_next_byte v 8, extractLsb'_zero_self v]

theorem addr_of_le32_bytes (v : Addr) :
    (v.extractLsb' 0 8).setWidth 32 ||| ((v.extractLsb' 8 8).setWidth 32 <<< 8) |||
      ((v.extractLsb' 16 8).setWidth 32 <<< 16) ||| ((v.extractLsb' 24 8).setWidth 32 <<< 24) = v := by
  rw [low_bits_or_next_byte v 8, low_bits_or_next_byte v 16, low_bits_or_next_byte v 24, extractLsb'_zero_self v]

/-! ## Runs of delivered bytes -/

theorem deliverAll_cons (b : Byte) (bs : List Byte) (s : State) :
    deliverAll (b :: bs) s = deliverAll bs (s.rxLineStep b) := rfl

theorem deliverAll_append (bs cs : List Byte) (s : State) :
    deliverAll (bs ++ cs) s = deliverAll cs (deliverAll bs s) := by
  induction bs generalizing s with
  | nil => rfl
  | cons b bs ih => exact ih (s.rxLineStep b)

/-- The two bytes of a 16-bit field are two RX line steps. -/
theorem deliverAll_le16 (v : Half) (s : State) :
    deliverAll (le16 v) s = (s.rxLineStep (v.extractLsb' 0 8)).rxLineStep (v.extractLsb' 8 8) := rfl

section
variable {s : State}

/-- From either hunting phase the marker and a command byte start a frame (R152 to R154). -/
theorem deliverAll_marker_command {c : Byte} (hhunt : s.rx.ph = .hunt0 ∨ s.rx.ph = .hunt1)
    (hc : c = 0x57#8 ∨ c = 0x52#8) :
    deliverAll [0xAA#8, 0x55#8, c] s =
      { s with rx := { s.rx with cmd := c, addr := 0#32, len := 0#16, idx := 0#16, acc := 0#16, ph := .a0 } } := by
  have hsync : s.rxLineStep 0xAA#8 = { s with rx := { s.rx with ph := .hunt1 } } := by
    rcases hhunt with h | h
    · exact State.rxLineStep_hunt0 _ h
    · exact State.rxLineStep_hunt1 _ h
  rw [deliverAll_cons, hsync, deliverAll_cons, State.rxLineStep_hunt1 _ rfl, deliverAll_cons,
    State.rxLineStep_cmd_start c rfl hc]
  rfl

/-- The four address bytes leave the address sent in RXADDR (R155). -/
theorem deliverAll_le32 (a : Addr) (hph : s.rx.ph = .a0) (haddr : s.rx.addr = 0#32) :
    deliverAll (le32 a) s = { s with rx := { s.rx with addr := a, ph := .l0 } } := by
  rw [le32, deliverAll_cons, State.rxLineStep_a0 _ hph, deliverAll_cons, State.rxLineStep_a1 _ rfl, deliverAll_cons,
    State.rxLineStep_a2 _ rfl, deliverAll_cons, State.rxLineStep_a3 _ rfl, haddr, BitVec.zero_or, addr_of_le32_bytes]
  rfl

/-- The two length bytes complete the header (R156). -/
theorem deliverAll_le16_length (l : Half) (hph : s.rx.ph = .l0) :
    deliverAll (le16 l) s = { s with
      rx := { s.rx with
        len := l
        pcnt := rxPayloadCount s.rx.cmd l
        ph := if rxPayloadCount s.rx.cmd l = 0#16 then .k0 else .pay }
      evlog := s.evlog ++ [eventWord (.hdr s.rx.cmd s.rx.addr l)] } := by
  rw [deliverAll_le16, State.rxLineStep_l0 _ hph, State.rxLineStep_l1 _ rfl (half_of_le16_bytes l).symm rfl]

/-- The two checksum bytes end the frame (R158, R159). -/
theorem deliverAll_le16_checksum (k : Half) (hph : s.rx.ph = .k0) :
    deliverAll (le16 k) s = { s with
      rx := { s.rx with ckl := k.extractLsb' 0 8, ph := .hunt0 }
      evlog := s.evlog ++ [eventWord (.endFrame (decide (k = s.rx.acc)) k s.rx.acc)]
      err := if k = s.rx.acc then s.err else { s.err with eRxck := true } } := by
  rw [deliverAll_le16, State.rxLineStep_k0 _ hph, State.rxLineStep_k1 _ rfl (half_of_le16_bytes k).symm]

/-- A whole header delivered to a hunting deframer is latched and posted, whatever the deframer held before. -/
theorem deliverAll_frameHeader {c : Byte} (a : Addr) (l : Half) (hhunt : s.rx.ph = .hunt0 ∨ s.rx.ph = .hunt1)
    (hc : c = 0x57#8 ∨ c = 0x52#8) :
    deliverAll (frameHeader c a l) s = { s with
      rx := { s.rx with
        ph := if rxPayloadCount c l = 0#16 then .k0 else .pay
        cmd := c, addr := a, len := l, pcnt := rxPayloadCount c l, idx := 0#16, acc := 0#16 }
      evlog := s.evlog ++ [eventWord (.hdr c a l)] } := by
  rw [frameHeader, deliverAll_append, deliverAll_append, Config.sync0, Config.sync1,
    deliverAll_marker_command hhunt hc, deliverAll_le32 a rfl rfl, deliverAll_le16_length l rfl]

/-- A READ frame carries no payload, so its checksum field is compared with 0 (R159). -/
theorem deliverAll_read_frame_err (a : Addr) (l k : Half) (hhunt : s.rx.ph = .hunt0 ∨ s.rx.ph = .hunt1) :
    (deliverAll (frame 0x52#8 a l [] k) s).err = if k = 0#16 then s.err else { s.err with eRxck := true } := by
  rw [frame_eq_header_payload_trailer, deliverAll_append, deliverAll_frameHeader a l hhunt (.inr rfl), List.nil_append,
    deliverAll_le16_checksum k rfl]

end

/-! ## The address, the length and the trailer -/

/-- Settles O28: one equation per address phase, and the four bytes put together. -/
theorem addressBytesAssembleLittleEndian : Obligations.AddressBytesAssembleLittleEndian :=
  ⟨fun b _ => ⟨State.rxLineStep_a0 b, State.rxLineStep_a1 b, State.rxLineStep_a2 b, State.rxLineStep_a3 b⟩,
    fun a _ => deliverAll_le32 a⟩

/-- Settles O29: one equation per length phase, and the two bytes put together. -/
theorem lengthBytesPostTheHeader : Obligations.LengthBytesPostTheHeader := by
  refine ⟨fun b _ => State.rxLineStep_l0 b, fun b _ h => State.rxLineStep_l1 b h rfl rfl, fun l s h => ?assembled⟩
  case assembled => rw [deliverAll_le16_length l h]

/-- Settles O31: one equation per checksum phase, and the run over a whole READ frame. -/
theorem checksumIsComparedAtTheEnd : Obligations.ChecksumIsComparedAtTheEnd :=
  ⟨fun b _ => State.rxLineStep_k0 b, fun b _ h => State.rxLineStep_k1 b h rfl,
    fun _ a l k => deliverAll_read_frame_err a l k⟩

end Sys2Proof.Machine
end

section
/-! RX_RESET and the stale registers it leaves (43_receive.md R163): which registers a phase can still observe, and that
bytes delivered to deframers that agree on those have one effect. -/

namespace Sys2Proof.Machine

/-! ## Live registers -/

/-- The registers that the bytes to come can observe: each register that is written again before it is read is replaced
by its reset value. -/
def Rx.live (r : Rx) : Rx :=
  match r.ph with
  | .hunt0 | .hunt1 | .cmd => { Rx.reset with ph := r.ph }
  | .a0 | .a1 | .a2 | .a3 | .l0 | .l1 => { r with pcnt := 0#16, ckl := 0#8 }
  | .pay | .k0 => { r with ckl := 0#8 }
  | .k1 => r

@[simp] theorem Rx.live_ph (r : Rx) : r.live.ph = r.ph := by
  obtain ⟨ph⟩ := r
  cases ph <;> rfl

theorem Rx.live_hunt0 {r : Rx} (h : r.ph = .hunt0) : r.live = Rx.reset := by
  simp only [Rx.live, h]
  rfl

/-- What a delivered byte does to the live registers, with what it posts and raises. -/
def RxResult.live (d : RxResult) : RxResult := { d with rx := d.rx.live }

/-- On the way into a hunting phase or CMD every register but RXPH goes stale. -/
theorem RxResult.live_of_no_frame {p : RxPhase} (hp : p = .hunt0 ∨ p = .hunt1 ∨ p = .cmd) (r r' : Rx)
    (e : Option Event) (x : Option CodecError) :
    RxResult.live ⟨{ r with ph := p }, e, x⟩ = RxResult.live ⟨{ r' with ph := p }, e, x⟩ := by
  rcases hp with rfl | rfl | rfl <;> rfl

/-- On the way into K0 or PAY the checksum's low byte is stale. -/
theorem RxResult.live_of_payload {d : RxResult} (hd : d.rx.ph = .k0 ∨ d.rx.ph = .pay) (c : Byte) :
    RxResult.live { d with rx := { d.rx with ckl := c } } = d.live := by
  obtain ⟨⟨ph, _⟩, _⟩ := d
  rcases hd with h | h <;> cases h <;> rfl

theorem rxHeaderEnd_ph (b : Byte) (r : Rx) : (rxHeaderEnd b r).rx.ph = .k0 ∨ (rxHeaderEnd b r).rx.ph = .pay :=
  ite_eq_or_eq (rxPayloadCount r.cmd (r.len ||| (zext16 b <<< 8)) = 0#16) _ _

theorem rxPayload_ph (b : Byte) (r : Rx) : (rxPayload b r).rx.ph = .k0 ∨ (rxPayload b r).rx.ph = .pay :=
  ite_eq_or_eq (r.idx + 1#16 = r.pcnt) _ _

theorem huntNext_no_frame (b : Byte) : huntNext b = .hunt0 ∨ huntNext b = .hunt1 ∨ huntNext b = .cmd := by
  rcases ite_eq_or_eq (b = Config.sync0) RxPhase.hunt1 RxPhase.hunt0 with h | h
  · exact .inr (.inl h)
  · exact .inl h

/-- A delivered byte reads live registers only. -/
theorem rxReceive_live (b : Byte) (r : Rx) : (rxReceive b r.live).live = (rxReceive b r).live := by
  obtain ⟨ph, cmd, addr, len, pcnt, idx, acc, ckl⟩ := r
  cases ph with
  | a0 | a1 | a2 | a3 | l0 | k0 | k1 => rfl
  | hunt0 => exact RxResult.live_of_no_frame (huntNext_no_frame b) ..
  | hunt1 =>
    refine RxResult.live_of_no_frame ?_ ..
    split
    · exact .inr (.inr rfl)
    · exact huntNext_no_frame b
  | cmd =>
    by_cases hb : b = Config.cmdWrite ∨ b = Config.cmdRead
    · rw [rxReceive_cmd_start b rfl hb, rxReceive_cmd_start b rfl hb]
      rfl
    · rw [rxReceive_cmd_bad b rfl hb, rxReceive_cmd_bad b rfl hb]
      exact RxResult.live_of_no_frame (huntNext_no_frame b) ..
  | l1 => exact RxResult.live_of_payload (rxHeaderEnd_ph b ⟨.l1, cmd, addr, len, pcnt, idx, acc, ckl⟩) 0#8
  | pay => exact RxResult.live_of_payload (rxPayload_ph b ⟨.pay, cmd, addr, len, pcnt, idx, acc, ckl⟩) 0#8

/-- Deframers with the same live registers answer a byte with the same event and the same error, and their live
registers stay the same. -/
theorem rxReceive_congr_live {r r' : Rx} (h : r.live = r'.live) (b : Byte) :
    (rxReceive b r).live = (rxReceive b r').live := by
  rw [← rxReceive_live b r, h, rxReceive_live b r']

/-! ## Runs of delivered bytes -/

/-- What stale registers cannot change: EVLOG, the sticky bits and the live registers. -/
def State.rxView (s : State) : List EventWord × Sticky × Rx := (s.evlog, s.err, s.rx.live)

theorem State.rxLineStep_congr_rxView {s u : State} (h : s.rxView = u.rxView) (b : Byte) :
    (s.rxLineStep b).rxView = (u.rxLineStep b).rxView := by
  simp only [State.rxView, Prod.mk.injEq] at h
  obtain ⟨hev, herr, hrx⟩ := h
  obtain ⟨hlive, hevent, herror⟩ := RxResult.ext_iff.mp (rxReceive_congr_live hrx b)
  simp only [RxResult.live] at hlive hevent herror
  simp only [State.rxView, State.rxLineStep_evlog, State.rxLineStep_err, State.rxLineStep_rx, hev, herr, hlive, hevent,
    herror]

theorem deliverAll_congr_rxView (bs : List Byte) {s u : State} (h : s.rxView = u.rxView) :
    (deliverAll bs s).rxView = (deliverAll bs u).rxView := by
  induction bs generalizing s u with
  | nil => exact h
  | cons b bs ih => exact ih (State.rxLineStep_congr_rxView h b)

/-- In HUNT0 every register but RXPH is stale. -/
theorem State.rxView_of_hunt0 {s : State} (h : s.rx.ph = .hunt0) : s.rxView = (s.evlog, s.err, Rx.reset) := by
  rw [State.rxView, Rx.live_hunt0 h]

/-! ## The op -/

theorem exec_rxReset (s : State) : exec .rxReset s = .next { s with rx := { s.rx with ph := .hunt0 } } := rfl

/-- Settles O37: the row of OP 0x6 and its word, a write of RXPH alone, and two hunting deframers that agree on all
that the bytes to come can observe. -/
theorem rxResetReturnsToTheHunt : Obligations.RxResetReturnsToTheHunt := by
  refine ⟨fun _ => decode_rxReset, ?word, fun s => ⟨s.accepts_of_not_isTxOp rfl, exec_rxReset s⟩,
    fun bs s r hs hr => ?stale⟩
  case word => decide
  case stale =>
    have hview : s.rxView = { s with rx := r }.rxView :=
      (State.rxView_of_hunt0 hs).trans (State.rxView_of_hunt0 (s := { s with rx := r }) hr).symm
    have hrun := deliverAll_congr_rxView bs hview
    simp only [State.rxView, Prod.mk.injEq] at hrun
    obtain ⟨hev, herr, hlive⟩ := hrun
    refine ⟨hev, herr, ?phase⟩
    case phase => rw [← Rx.live_ph, hlive, Rx.live_ph]

end Sys2Proof.Machine
end

section
/-! The control ops NOP, CLR_STATUS and the reserved ops (44_control.md R180 to R182): what each writes, and what the
clearing of the sticky bits leaves in STATUS. -/

namespace Sys2Proof.Machine

/-! ## STATUS with no sticky bit set (R29, R181) -/

/-- Of a word in the layout of STATUS (R29), the mask of the live bits keeps those three fields and zeroes the four
sticky ones. -/
theorem statusLayout_and_liveMask (need inFrame busy rxcmd rxck illop addr : BitVec 1) :
    (0#5 ++ need ++ inFrame ++ busy ++ 0#4 ++ rxcmd ++ rxck ++ illop ++ addr) &&&
        (0#5 ++ BitVec.allOnes 1 ++ BitVec.allOnes 1 ++ BitVec.allOnes 1 ++ 0#4 ++ 0#1 ++ 0#1 ++ 0#1 ++ 0#1) =
      0#5 ++ need ++ inFrame ++ busy ++ 0#4 ++ 0#1 ++ 0#1 ++ 0#1 ++ 0#1 := by
  simp only [BitVec.and_append, BitVec.and_allOnes, BitVec.and_zero]

/-- No live bit is computed from a sticky bit, so clearing the four keeps the live bits and zeroes the rest. -/
theorem State.clearErrors_status (s : State) : s.clearErrors.status = s.status &&& 0x0700#16 := by
  have hneed : s.clearErrors.txNeedData = s.txNeedData := rfl
  have hinFrame : s.clearErrors.rxInFrame = s.rxInFrame := rfl
  have hbusy : s.clearErrors.txBusy = s.txBusy := rfl
  rw [State.status, hneed, hinFrame, hbusy, State.clearErrors_err]
  exact (statusLayout_and_liveMask ..).symm

/-! ## The ops -/

theorem exec_nop (s : State) : exec .nop s = .next s := rfl

theorem exec_clrStatus (s : State) : exec .clrStatus s = .next s.clearErrors := rfl

theorem exec_reserved (op : BitVec 4) (s : State) :
    exec (.reserved op) s = .next { s with err := { s.err with eIllop := true } } := rfl

/-- Settles O38: the row of OP 0x0, its word, and the state itself as the next one. -/
theorem nopChangesNothing : Obligations.NopChangesNothing := by
  refine ⟨fun _ => decode_nop, ?word, fun s => ⟨s.accepts_of_not_isTxOp rfl, exec_nop s⟩⟩
  case word => decide

/-- Settles O39: the row of OP 0x7, its word, a write of the sticky bits alone, and STATUS after it. -/
theorem clrStatusClearsTheStickyBits : Obligations.ClrStatusClearsTheStickyBits := by
  refine ⟨fun _ => decode_clrStatus, ?word, fun s => ⟨s.accepts_of_not_isTxOp rfl, s.clearErrors, ?effect⟩⟩
  case word => decide
  case effect => exact ⟨exec_clrStatus s, rfl, s.clearErrors_status⟩

/-- Settles O40: the reserved half of the op values decodes to the reserved ops, and each of them writes E_ILLOP
alone. -/
theorem reservedOpOnlySetsIllop : Obligations.ReservedOpOnlySetsIllop :=
  ⟨fun _ => decode_reserved, fun op s => ⟨s.accepts_of_not_isTxOp rfl, exec_reserved op s⟩⟩

end Sys2Proof.Machine
end

section
/-! Encodings (30_encoding.md R71, R73, R88, R90): packing and reading the fields of a command word undo each other, and
the fields of an event word are those of its event. -/

namespace Sys2Proof.Machine

open Sys2Proof.Laws

/-! ## The fields of a packed word (R71) -/

section
variable (ckv pcnt len : Half) (addr : Addr) (data : Byte) (rsv : BitVec 3) (csel : BitVec 1) (op : BitVec 4)

theorem dataField_packWord : dataField (packWord ckv pcnt len addr data rsv csel op) = data := by
  simp only [dataField, packWord, BitVec.extractLsb'_append_eq_of_le, Nat.reduceLeDiff, Nat.reduceSub,
    BitVec.extractLsb'_append_eq_right]

theorem addrField_packWord : addrField (packWord ckv pcnt len addr data rsv csel op) = addr := by
  simp only [addrField, packWord, BitVec.extractLsb'_append_eq_of_le, Nat.reduceLeDiff, Nat.reduceSub,
    BitVec.extractLsb'_append_eq_right]

theorem lenField_packWord : lenField (packWord ckv pcnt len addr data rsv csel op) = len := by
  simp only [lenField, packWord, BitVec.extractLsb'_append_eq_of_le, Nat.reduceLeDiff, Nat.reduceSub,
    BitVec.extractLsb'_append_eq_right]

theorem pcntField_packWord : pcntField (packWord ckv pcnt len addr data rsv csel op) = pcnt := by
  simp only [pcntField, packWord, BitVec.extractLsb'_append_eq_of_le, Nat.reduceLeDiff, Nat.reduceSub,
    BitVec.extractLsb'_append_eq_right]

theorem ckvField_packWord : ckvField (packWord ckv pcnt len addr data rsv csel op) = ckv := by
  simp only [ckvField, packWord, BitVec.extractLsb'_append_eq_of_le, Nat.reduceLeDiff, Nat.reduceSub,
    BitVec.extractLsb'_eq_self, le_refl]

end

/-- A word is the packing of its own fields: R71 leaves no bit out. -/
theorem packWord_fields (w : CmdWord) :
    packWord (ckvField w) (pcntField w) (lenField w) (addrField w) (dataField w) (rsvField w) (cselField w)
      (opField w) = w := by
  apply BitVec.eq_of_toNat_eq
  simp only [packWord, ckvField, pcntField, lenField, addrField, dataField, rsvField, cselField, opField,
    toNat_append_eq_mul_add, BitVec.extractLsb'_toNat, Nat.shiftRight_eq_div_pow]
  omega

section
variable (w : CmdWord) (ckv pcnt len : Half) (addr : Addr) (data : Byte) (rsv : BitVec 3) (csel : BitVec 1)
  (op : BitVec 4)

/-- A packed mask acts on each field of a word by itself. -/
theorem and_packWord :
    w &&& packWord ckv pcnt len addr data rsv csel op =
      packWord (ckvField w &&& ckv) (pcntField w &&& pcnt) (lenField w &&& len) (addrField w &&& addr)
        (dataField w &&& data) (rsvField w &&& rsv) (cselField w &&& csel) (opField w &&& op) := by
  conv_lhs => rw [← packWord_fields w]
  refine BitVec.and_append.trans ?_
  simp only [BitVec.and_append]
  rfl

end

/-! ## Decoding the assembled word (R90) -/

@[simp] theorem frameCmd_ofBit_toBit (c : FrameCmd) : FrameCmd.ofBit c.toBit = c := by
  cases c <;> rfl

@[simp] theorem frameCmd_toBit_ofBit (b : BitVec 1) : (FrameCmd.ofBit b).toBit = b := by
  revert b
  decide

/-- OP of the assembled word is the instruction's op value. -/
theorem opField_encode (i : Instr) : opField (encode i) = i.opcode := by
  cases i <;> exact opField_packWord ..

/-- Settles O1: OP of the assembled word selects the instruction's row of the table, and each field that the row reads
holds the operand that was packed there. -/
theorem decodeOfEncode : Obligations.DecodeOfEncode := by
  intro i hwf
  have hop := opField_encode i
  cases i with
  | nop => exact decode_nop hop
  | ckClear => exact decode_ckClear hop
  | ckAdd data => rw [decode_ckAdd hop, encode, dataField_packWord]
  | txWrite addr len => rw [decode_txWrite hop, encode, addrField_packWord, lenField_packWord]
  | txRead addr len => rw [decode_txRead hop, encode, addrField_packWord, lenField_packWord]
  | txBuild csel addr len pcnt ckv =>
    rw [decode_txBuild hop, encode, cselField_packWord, addrField_packWord, lenField_packWord, pcntField_packWord,
      ckvField_packWord, frameCmd_ofBit_toBit]
  | rxReset => exact decode_rxReset hop
  | clrStatus => exact decode_clrStatus hop
  | reserved op =>
    have hreserved : 8#4 ≤ op := of_decide_eq_true hwf
    rw [decode_reserved (hop ▸ hreserved), hop, Instr.opcode]

/-! ## Assembling the decoded word (R73) -/

/-- The ops with no operands read OP alone. -/
theorem readMask_of_no_operands : ∀ op : BitVec 4,
    op = 0x0#4 ∨ op = 0x1#4 ∨ op = 0x6#4 ∨ op = 0x7#4 ∨ 8#4 ≤ op →
      readMask op = packWord 0 0 0 0 0 0 0 (.allOnes 4) := by
  decide

/-- What such an op keeps of its word is OP. -/
theorem and_readMask_of_no_operands {w : CmdWord}
    (h : opField w = 0x0#4 ∨ opField w = 0x1#4 ∨ opField w = 0x6#4 ∨ opField w = 0x7#4 ∨ 8#4 ≤ opField w) :
    w &&& readMask (opField w) = packWord 0 0 0 0 0 0 0 (opField w) := by
  rw [readMask_of_no_operands _ h, and_packWord]
  simp only [BitVec.ofNat_eq_ofNat, BitVec.and_allOnes, BitVec.and_zero]

/-- Settles O2: a word is the packing of its fields, and the mask of each row of the table keeps exactly the fields
that assembling the row packs again. -/
theorem encodeOfDecodeKeepsReadBits : Obligations.EncodeOfDecodeKeepsReadBits := by
  intro w
  rcases op_rows (opField w) with h | h | h | h | h | h | h | h | h
  · rw [and_readMask_of_no_operands (.inl h), decode_nop h, h]
    rfl
  · rw [and_readMask_of_no_operands (.inr (.inl h)), decode_ckClear h, h]
    rfl
  · rw [decode_ckAdd h, h, readMask, and_packWord, h]
    simp only [encode, Instr.opcode, BitVec.ofNat_eq_ofNat, BitVec.and_allOnes, BitVec.and_zero]
  · rw [decode_txWrite h, h, readMask, and_packWord, h]
    simp only [encode, Instr.opcode, BitVec.ofNat_eq_ofNat, BitVec.and_allOnes, BitVec.and_zero]
  · rw [decode_txRead h, h, readMask, and_packWord, h]
    simp only [encode, Instr.opcode, BitVec.ofNat_eq_ofNat, BitVec.and_allOnes, BitVec.and_zero]
  · rw [decode_txBuild h, h, readMask, and_packWord, h]
    simp only [encode, Instr.opcode, BitVec.ofNat_eq_ofNat, BitVec.and_allOnes, BitVec.and_zero, frameCmd_toBit_ofBit]
  · rw [and_readMask_of_no_operands (.inr (.inr (.inl h))), decode_rxReset h, h]
    rfl
  · rw [and_readMask_of_no_operands (.inr (.inr (.inr (.inl h)))), decode_clrStatus h, h]
    rfl
  · rw [and_readMask_of_no_operands (.inr (.inr (.inr (.inr h)))), decode_reserved h]
    rfl

/-- Settles O5: each word is decoded as it stands. -/
theorem specWordsDecode : Obligations.SpecWordsDecode := by
  unfold Obligations.SpecWordsDecode
  decide

/-! ## The fields of an event word (R88) -/

/-- Bit 4 of the word of an END event is its OK. -/
theorem eventWord_endFrame_ok (ok : Bool) (ckrx ckcalc : Half) :
    (eventWord (.endFrame ok ckrx ckcalc)).getLsbD 4 = ok := by
  simp only [eventWord, BitVec.getLsbD_append, lt_irrefl, if_false, Nat.sub_self, Nat.one_pos, if_true]
  cases ok <;> rfl

/-- Settles O6: KIND selects the constructor, and each field listed for it is read from where it was put. -/
theorem eventOfEventWord : Obligations.EventOfEventWord := by
  intro e
  cases e with
  | hdr cmd addr len =>
    simp only [eventFields, eventKind, eventWord, BitVec.extractLsb'_append_eq_right, Nat.reduceLeDiff, Nat.reduceSub,
      BitVec.extractLsb'_append_eq_of_le, BitVec.extractLsb'_eq_self, le_refl]
  | pay byte idx =>
    simp only [eventFields, eventKind, eventWord, BitVec.extractLsb'_append_eq_right, Nat.reduceLeDiff, Nat.reduceSub,
      BitVec.extractLsb'_append_eq_of_le]
  | endFrame ok ckrx ckcalc =>
    have hok := eventWord_endFrame_ok ok ckrx ckcalc
    rw [eventWord] at hok
    simp only [eventFields, eventKind, eventWord, BitVec.extractLsb'_append_eq_right, Nat.reduceLeDiff, Nat.reduceSub,
      BitVec.extractLsb'_append_eq_of_le, hok]
  | badCmd byte =>
    simp only [eventFields, eventKind, eventWord, BitVec.extractLsb'_append_eq_right, Nat.reduceLeDiff, Nat.reduceSub,
      BitVec.extractLsb'_append_eq_of_le]

end Sys2Proof.Machine
end

section
/-! The checksum function (41_checksum.md R101, R102, R106, R107): a sum of bytes modulo 65536, so that adding the
bytes one by one computes it and neither their order nor a byte 0x00 changes it. -/

namespace Sys2Proof.Machine

/-! ## The sum of bytes -/

@[simp] theorem byteSum_nil : byteSum [] = 0 := rfl

@[simp] theorem byteSum_cons (b : Byte) (p : List Byte) : byteSum (b :: p) = b.toNat + byteSum p := by
  simp only [byteSum, List.map_cons, List.sum_cons]

theorem byteSum_append (p q : List Byte) : byteSum (p ++ q) = byteSum p + byteSum q := by
  simp only [byteSum, List.map_append, List.sum_append]

theorem byteSum_perm {p q : List Byte} (h : p.Perm q) : byteSum p = byteSum q :=
  (h.map BitVec.toNat).sum_eq

/-- Bytes 0x00 add nothing. -/
theorem byteSum_filter_ne_zero (p : List Byte) : byteSum (p.filter (· ≠ 0x00#8)) = byteSum p := by
  induction p with
  | nil => rfl
  | cons b p ih =>
    by_cases hb : b = 0x00#8
    · rw [List.filter_cons_of_neg (by simp [hb]), ih, byteSum_cons, hb]
      exact (Nat.zero_add _).symm
    · rw [List.filter_cons_of_pos (by simp [hb]), byteSum_cons, byteSum_cons, ih]

/-! ## The checksum -/

theorem checksum_toNat (p : List Byte) : (checksum p).toNat = byteSum p % 65536 :=
  BitVec.toNat_ofNat _ _

/-- One more byte is one AccAdd. -/
theorem accAdd_checksum (p : List Byte) (b : Byte) : accAdd (checksum p) b = checksum (p ++ [b]) := by
  apply BitVec.eq_of_toNat_eq
  rw [accAdd_toNat, checksum_toNat, checksum_toNat, byteSum_append, byteSum_cons, byteSum_nil]
  omega

theorem foldl_accAdd_checksum (p q : List Byte) : q.foldl accAdd (checksum p) = checksum (p ++ q) := by
  induction q generalizing p with
  | nil => rw [List.append_nil, List.foldl_nil]
  | cons b q ih => rw [List.foldl_cons, accAdd_checksum, ih, List.append_assoc, List.singleton_append]

theorem foldl_accAdd_zero (p : List Byte) : p.foldl accAdd 0#16 = checksum p :=
  foldl_accAdd_checksum [] p

/-- Settles O11: the fold from any checksum, by induction on the bytes still to add; 0 is the checksum of no byte. -/
theorem foldOfAccAddIsChecksum : Obligations.FoldOfAccAddIsChecksum :=
  fun p q => ⟨foldl_accAdd_zero p, foldl_accAdd_checksum p q, checksum_toNat p⟩

/-- Settles O13: the sum of the bytes is the same for a permutation, and without the bytes 0x00. -/
theorem checksumIgnoresOrderAndZeros : Obligations.ChecksumIgnoresOrderAndZeros := by
  refine ⟨fun p q h => ?order, fun p q h => ?zeros, by decide, by decide⟩
  case order => rw [checksum, checksum, byteSum_perm h]
  case zeros => rw [checksum, checksum, ← byteSum_filter_ne_zero p, h, byteSum_filter_ne_zero q]

/-! ## The ops of the host accumulator, one after another -/

/-- CK_ADDs fold their bytes into HACC. -/
theorem execAll_ckAdd (p : List Byte) (s : State) :
    execAll (p.map .ckAdd) s = .next { s with hacc := p.foldl accAdd s.hacc } := by
  induction p generalizing s with
  | nil => rfl
  | cons b p ih => exact ih { s with hacc := accAdd s.hacc b }

/-- Settles O12: after CK_CLEAR the bytes are folded in from 0. -/
theorem sumSequenceLeavesChecksum : Obligations.SumSequenceLeavesChecksum := by
  intro s p
  calc execAll (.ckClear :: p.map .ckAdd) s
      = execAll (p.map .ckAdd) { s with hacc := 0#16 } := rfl
    _ = .next { s with hacc := p.foldl accAdd 0#16 } := execAll_ckAdd p _
    _ = .next { s with hacc := checksum p } := by rw [foldl_accAdd_zero]

end Sys2Proof.Machine
end

section
/-! What a step can do to the block (10_state.md R11, R23, R24): one case per agent's action, and one per effect of a
command word. -/

namespace Sys2Proof.Machine

/-- The TX line's step is the same before and after an update that keeps the serializer and commutes with its writes. -/
theorem State.txLineStep_comm {f : State → State} {s : State} (htx : (f s).tx = s.tx)
    (hf : ∀ t bs, f { s with tx := t, txlog := s.txlog ++ bs } = { f s with tx := t, txlog := (f s).txlog ++ bs }) :
    (f s).txLineStep = f s.txLineStep := by
  cases h : txPresented s.tx with
  | none => rw [State.txLineStep_of_silent h, State.txLineStep_of_silent (htx.symm ▸ h)]
  | some b => rw [State.txLineStep_of_presented h, State.txLineStep_of_presented (htx.symm ▸ h), htx, hf]

/-! ## The block without its agents -/

/-- The block with ADDR_LIMIT: the state without the host threads and the order of steps, which are the model's own. -/
def State.block (s : State) : State := { s with threads := [], sched := [] }

section
variable (s : State)

@[simp] theorem State.block_hacc : s.block.hacc = s.hacc := rfl
@[simp] theorem State.block_tx : s.block.tx = s.tx := rfl
@[simp] theorem State.block_rx : s.block.rx = s.rx := rfl
@[simp] theorem State.block_err : s.block.err = s.err := rfl
@[simp] theorem State.block_evlog : s.block.evlog = s.evlog := rfl
@[simp] theorem State.block_txlog : s.block.txlog = s.txlog := rfl
@[simp] theorem State.block_addrLimit : s.block.addrLimit = s.addrLimit := rfl

theorem State.block_txLineStep : s.txLineStep.block = s.block.txLineStep :=
  (State.txLineStep_comm (f := State.block) rfl fun _ _ => rfl).symm

theorem State.block_rxLineStep (b : Byte) : (s.rxLineStep b).block = s.block.rxLineStep b := by
  rw [State.rxLineStep_eq, State.rxLineStep_eq]
  rfl

theorem State.block_txOp (cmd : Byte) (a : Addr) (l n : Half) (m : CkMode) (k : Half) :
    (s.txOp cmd a l n m k).block = s.block.txOp cmd a l n m k := by
  simp only [State.txOp, State.block_tx, State.block_addrLimit, apply_ite State.block]
  rfl

end

/-- No instruction reads or writes the host threads or the order of steps. -/
theorem exec_block {i : Instr} {s t : State} (h : exec i s = .next t) : exec i s.block = .next t.block := by
  have ht := exec_next_cases h
  cases i <;> simp only at ht <;> subst ht
  case txWrite | txRead | txBuild => exact congrArg _ (State.block_txOp ..).symm
  all_goals rfl

/-! ## What an instruction does -/

/-- `i` is a TX op with the address `a`. -/
def isTxOpAt (i : Instr) (a : Addr) : Prop :=
  (∃ l, i = .txWrite a l) ∨ (∃ l, i = .txRead a l) ∨ ∃ c l n k, i = .txBuild c a l n k

/-- The effects of an instruction `i` that takes `s` to `t`. -/
inductive ExecCase (i : Instr) (s t : State) : Prop where
  /-- NOP (R180), or a TX op that holds (R10). -/
  | keep (ht : t = s)
  | ckClear (hi : i = .ckClear) (ht : t = s.withHacc 0#16)
  | ckAdd (d : Byte) (hi : i = .ckAdd d) (ht : t = s.withHacc (accAdd s.hacc d))
  /-- A TX op with an address above ADDR_LIMIT (R122). -/
  | refuse (a : Addr) (hi : isTxOpAt i a) (hidle : s.tx.ph = .idle) (ha : s.addrLimit < a)
      (ht : t = s.raise (.addressOutOfRange a))
  /-- A TX op that starts its frame (R121). -/
  | start (cmd : Byte) (a : Addr) (l n : Half) (m : CkMode) (k : Half)
      (hcmd : cmd = Config.cmdWrite ∨ cmd = Config.cmdRead) (hidle : s.tx.ph = .idle) (ha : a ≤ s.addrLimit)
      (ht : t = s.withTx (txStart cmd a l n m k s.tx))
  | rxReset (hi : i = .rxReset) (ht : t = s.withRx { s.rx with ph := .hunt0 })
  | clrStatus (hi : i = .clrStatus) (ht : t = s.clearErrors)
  | reserved (op : BitVec 4) (hi : i = .reserved op) (ht : t = s.raise (.illegalOp op))

/-- A TX op holds, is refused or starts. -/
theorem ExecCase.of_txOp {i : Instr} {s t : State} {cmd : Byte} {a : Addr} {l n : Half} {m : CkMode} {k : Half}
    (hi : isTxOpAt i a) (hcmd : cmd = Config.cmdWrite ∨ cmd = Config.cmdRead) (ht : t = s.txOp cmd a l n m k) :
    ExecCase i s t := by
  rcases State.txOp_cases ht.symm with ⟨-, ht⟩ | ⟨hidle, ha, ht⟩ | ⟨hidle, ha, ht⟩
  · exact .keep ht
  · exact .refuse a hi hidle ha ht
  · exact .start cmd a l n m k hcmd hidle ha ht

theorem frameCmd_byte_eq_or (c : FrameCmd) : c.byte = Config.cmdWrite ∨ c.byte = Config.cmdRead := by
  cases c
  · exact .inl rfl
  · exact .inr rfl

theorem exec_cases {i : Instr} {s t : State} (h : exec i s = .next t) : ExecCase i s t := by
  have ht := exec_next_cases h
  cases i with
  | nop => exact .keep ht
  | ckClear => exact .ckClear rfl ht
  | ckAdd d => exact .ckAdd d rfl ht
  | txWrite a l => exact .of_txOp (.inl ⟨l, rfl⟩) (.inl rfl) ht
  | txRead a l => exact .of_txOp (.inr (.inl ⟨l, rfl⟩)) (.inr rfl) ht
  | txBuild c a l n k => exact .of_txOp (.inr (.inr ⟨c, l, n, k, rfl⟩)) (frameCmd_byte_eq_or c) ht
  | rxReset => exact .rxReset rfl ht
  | clrStatus => exact .clrStatus rfl ht
  | reserved op => exact .reserved op rfl ht

/-! ## What a step does -/

/-- What the step from `s` to `t` does to the block. -/
inductive StepCase (s t : State) : Prop where
  /-- No turn, a held turn, a finished thread, or a read of STATUS or CK_ACC. -/
  | keep (ht : t.block = s.block)
  | txLine (rest : List Turn) (hs : s.sched = .txLine :: rest) (ht : t.block = s.block.txLineStep)
  | rxLine (b : Byte) (rest : List Turn) (hs : s.sched = .rxLine b :: rest) (ht : t.block = s.block.rxLineStep b)
  | reset (rest : List Turn) (hs : s.sched = .resetInput :: rest)
      (ht : t.block = { State.resetWith s.addrLimit with txlog := s.txlog })
  /-- A payload byte is taken (R128). -/
  | put (b : Byte) (hph : s.tx.ph = .pay) (hpbv : s.tx.pbv = false) (ht : t.block = s.block.putByte b)
  /-- A host thread takes the event word at the head of EVLOG (R33). -/
  | take (k : Nat) (turns : List Turn) (th : HostThread) (rest : List HostAction) (w : EventWord) (ws : List EventWord)
      (hs : s.sched = .host k :: turns) (hth : s.threads[k]? = some th) (hprog : th.prog = .takeEv :: rest)
      (hevlog : s.evlog = w :: ws) (ht : t.block = s.block.withEvlog ws)
  /-- A command word is carried out (R25). -/
  | command (i : Instr) (u : State) (hmove : s.nextMove = .command i u) (ht : ExecCase i s.block t.block)

theorem State.nextMove_of_sched {s : State} {turn : Turn} {rest : List Turn} (h : s.sched = turn :: rest) :
    s.nextMove = (s.withSched rest).moveOf turn := by
  simp only [State.nextMove, h]

/-- A command word is carried out on the block as it stands. -/
theorem StepCase.of_command {s t u : State} {i : Instr} (hmove : s.nextMove = .command i u) (hu : u.block = s.block)
    (hexec : exec i u = .next t) : StepCase s t :=
  .command i u hmove (hu ▸ exec_cases (exec_block hexec))

/-- A move that is complete leaves its own state. -/
theorem Move.eq_of_done {m : Move} {t u : State}
    (h : m = .done t ∨ ∃ i v, m = .command i v ∧ exec i v = .next t) (hm : m = .done u) : t = u := by
  subst hm
  rcases h with h | ⟨i, v, h, -⟩ <;> cases h
  rfl

/-- The turn of a host thread. -/
theorem StepCase.of_hostMove {s t : State} {k : Nat} {turns : List Turn} (hs : s.sched = .host k :: turns)
    (h : (s.withSched turns).hostMove k = .done t ∨
      ∃ i u, (s.withSched turns).hostMove k = .command i u ∧ exec i u = .next t) : StepCase s t := by
  have hmove : s.nextMove = (s.withSched turns).hostMove k := State.nextMove_of_sched hs
  rcases (s.withSched turns).hostMove_cases k with hheld | ⟨th, hth, hact⟩
  · obtain rfl := Move.eq_of_done h hheld
    exact .keep rfl
  rcases hact with ⟨w, rest, hprog, hact⟩ | ⟨b, rest, hprog, hready, hact⟩ | ⟨rest, hprog, hact⟩ |
    ⟨rest, hprog, hact⟩ | ⟨w, ws, rest, hprog, hevlog, hact⟩
  · rw [hact] at h hmove
    rcases h with h | ⟨i, u, h, hexec⟩ <;> cases h
    refine .of_command hmove ?_ hexec
    split <;> rfl
  · obtain rfl := Move.eq_of_done h hact
    obtain ⟨hph, hpbv⟩ := (State.payloadReady_iff _).mp hready
    exact .put b hph hpbv rfl
  · obtain rfl := Move.eq_of_done h hact
    exact .keep rfl
  · obtain rfl := Move.eq_of_done h hact
    exact .keep rfl
  · obtain rfl := Move.eq_of_done h hact
    exact .take k turns th rest w ws hs hth hprog hevlog rfl

/-- Every step is one of the cases. -/
theorem step_cases {s t : State} (h : step s = .next t) : StepCase s t := by
  rcases step_next_cases h with ⟨-, rfl⟩ | ⟨rest, hs, rfl⟩ | ⟨b, rest, hs, rfl⟩ | ⟨rest, hs, rfl⟩ | ⟨k, rest, hs, hm⟩
  · exact .keep rfl
  · exact .txLine rest hs (State.block_txLineStep _)
  · exact .rxLine b rest hs (State.block_rxLineStep _ b)
  · exact .reset rest hs rfl
  · exact .of_hostMove hs hm

/-! ## The step of a turn -/

section
variable {s : State}

theorem step_of_done {u : State} (h : s.nextMove = .done u) : step s = .next u := by
  simp only [step, h]

theorem step_of_command {i : Instr} {u : State} (h : s.nextMove = .command i u) : step s = exec i u := by
  simp only [step, h]

end

end Sys2Proof.Machine
end

section
/-! Turns (10_state.md R10, R11, 20_memory.md R54, R55): the step of each port and of the reset input, and which step
writes HACC, TXLOG, EVLOG and the latches of a frame. -/

namespace Sys2Proof.Machine

/-! ## The move of a host thread, by its next action -/

section
variable {s : State} {k : Nat} {rest : List HostAction} {reads : List Reading}

theorem State.hostMove_issue {w : CmdWord} (h : s.threads[k]? = some { prog := .issue w :: rest, reads := reads }) :
    s.hostMove k = s.issueWord k { prog := .issue w :: rest, reads := reads } rest w := by
  simp only [State.hostMove, h]

theorem State.hostMove_put {b : Byte} (h : s.threads[k]? = some { prog := .put b :: rest, reads := reads }) :
    s.hostMove k = .done (s.hostPut k { prog := .put b :: rest, reads := reads } rest b) := by
  simp only [State.hostMove, h]

theorem State.hostMove_rdStat (h : s.threads[k]? = some { prog := .rdStat :: rest, reads := reads }) :
    s.hostMove k = .done (s.setThread k { prog := rest, reads := reads ++ [.status s.status] }) := by
  simp only [State.hostMove, h]
  rfl

theorem State.hostMove_rdAcc (h : s.threads[k]? = some { prog := .rdAcc :: rest, reads := reads }) :
    s.hostMove k = .done (s.setThread k { prog := rest, reads := reads ++ [.ckAcc s.hacc] }) := by
  simp only [State.hostMove, h]
  rfl

theorem State.hostMove_takeEv (h : s.threads[k]? = some { prog := .takeEv :: rest, reads := reads }) :
    s.hostMove k = .done (s.hostTake k { prog := .takeEv :: rest, reads := reads } rest) := by
  simp only [State.hostMove, h]

end

/-- With no turn due nothing moves. -/
theorem State.nextMove_of_no_turn {s : State} (h : s.sched = []) : s.nextMove = .done s := by
  simp only [State.nextMove, h]

section
variable {s : State} {k : Nat} {turns : List Turn} {u : State}

theorem step_of_hostMove_done (hs : s.sched = .host k :: turns) (h : (s.withSched turns).hostMove k = .done u) :
    step s = .next u :=
  step_of_done ((State.nextMove_of_sched hs).trans h)

theorem step_of_hostMove_command {i : Instr} (hs : s.sched = .host k :: turns)
    (h : (s.withSched turns).hostMove k = .command i u) : step s = exec i u :=
  step_of_command ((State.nextMove_of_sched hs).trans h)

end

/-! ## The ports and the reset input, one step each -/

/-- Settles O23: the payload port is ready exactly in PAY with PBV = 0, and `hostPut` holds where it is not. -/
theorem putIsTakenOnlyInPay : Obligations.PutIsTakenOnlyInPay := by
  intro s k turns b rest reads hs hth
  have hready : (s.withSched turns).payloadReady = true ↔ s.tx.ph = .pay ∧ s.tx.pbv = false :=
    State.payloadReady_iff _
  rw [step_of_hostMove_done hs (State.hostMove_put hth), State.hostPut]
  simp only [hready]
  split <;> rfl

/-- Settles O43: both reads retire with the value of the state before the step. -/
theorem portReadsReturnAndChangeNothing : Obligations.PortReadsReturnAndChangeNothing := by
  intro s k turns rest reads hs
  exact ⟨fun hth => step_of_hostMove_done hs (State.hostMove_rdStat hth),
    fun hth => step_of_hostMove_done hs (State.hostMove_rdAcc hth)⟩

/-- Settles O44: the two cases of `hostTake`, on EVLOG. -/
theorem takeRemovesTheHeadEvent : Obligations.TakeRemovesTheHeadEvent := by
  intro s k turns rest reads hs hth
  rw [step_of_hostMove_done hs (State.hostMove_takeEv hth), State.hostTake]
  refine ⟨fun w ws he => ?head, fun he => ?empty⟩ <;> simp only [State.withSched_evlog, he]
  case head => rfl
  case empty => rw [← he]; rfl

/-- Settles O48: the reset input's turn. -/
theorem resetInputAbandonsBothFrames : Obligations.ResetInputAbandonsBothFrames :=
  fun _ _ hs => step_of_done (State.nextMove_of_sched hs)

/-- Settles O49: the move of a thread that issues a word is the command it decodes to, and a word that holds changes
nothing, whatever the threads and the turns. -/
theorem stepRunsTheDecodedWord : Obligations.StepRunsTheDecodedWord :=
  ⟨fun _ _ _ _ _ _ hs hth => step_of_hostMove_command hs (State.hostMove_issue hth),
    fun _ _ _ _ h => exec_of_not_accepts h⟩

/-- Settles O50: a move is complete, or a command, and no command stops the block. -/
theorem everyStepHasANextState : Obligations.EveryStepHasANextState := by
  intro s
  cases hmove : s.nextMove with
  | done u => exact ⟨u, step_of_done hmove⟩
  | command i u => rw [step_of_command hmove]; exact exec_total i u

/-- Settles O47: R20's reset column, row by row. -/
theorem resetValuesOfEveryElement : Obligations.ResetValuesOfEveryElement := by
  unfold Obligations.ResetValuesOfEveryElement
  refine ⟨rfl, rfl, rfl, rfl, rfl, rfl, rfl, rfl, rfl, rfl, rfl, rfl, rfl, rfl, rfl, rfl, rfl, rfl, rfl, rfl, rfl, rfl,
    rfl, rfl, rfl, rfl, ?status, rfl, fun _ => rfl⟩
  case status => decide

/-! ## What an instruction leaves unchanged -/

section
variable {i : Instr} {s t : State}

theorem ExecCase.txlog (h : ExecCase i s t) : t.txlog = s.txlog := by
  cases h <;> subst t <;> rfl

theorem ExecCase.evlog (h : ExecCase i s t) : t.evlog = s.evlog := by
  cases h <;> subst t <;> rfl

theorem ExecCase.addrLimit (h : ExecCase i s t) : t.addrLimit = s.addrLimit := by
  cases h <;> subst t <;> rfl

/-- HACC is written by its two ops alone (R103). -/
theorem ExecCase.hacc (h : ExecCase i s t) :
    t.hacc = s.hacc ∨ (i = .ckClear ∧ t.hacc = 0#16) ∨ ∃ d, i = .ckAdd d ∧ t.hacc = accAdd s.hacc d := by
  cases h with
  | ckClear hi ht => exact .inr (.inl ⟨hi, by simp [ht]⟩)
  | ckAdd d hi ht => exact .inr (.inr ⟨d, hi, by simp [ht]⟩)
  | keep ht | refuse _ _ _ _ ht | start _ _ _ _ _ _ _ _ _ ht | rxReset _ ht | clrStatus _ ht | reserved _ _ ht =>
    exact .inl (by simp [ht])

/-- During a frame no instruction writes the serializer (R26, R132). -/
theorem ExecCase.tx_of_ne_idle (h : ExecCase i s t) (hph : s.tx.ph ≠ .idle) : t.tx = s.tx := by
  cases h with
  | start _ _ _ _ _ _ _ hidle => exact absurd hidle hph
  | keep ht | ckClear _ ht | ckAdd _ _ ht | refuse _ _ _ _ ht | rxReset _ ht | clrStatus _ ht | reserved _ _ ht =>
    simp [ht]

end

/-! ## One writer each -/

/-- Settles O14: of the cases of a step only the reset input's and a command's write HACC. -/
theorem haccWrittenOnlyByItsOps : Obligations.HaccWrittenOnlyByItsOps := by
  intro s t hstep hne
  cases step_cases hstep with
  | keep ht | put _ _ _ ht | take _ _ _ _ _ _ _ _ _ _ ht | txLine _ _ ht | rxLine _ _ _ ht =>
    exact absurd (by simpa using congrArg State.hacc ht) hne
  | reset rest hs => exact .inl ⟨rest, hs⟩
  | command i u hmove ht =>
    rcases ht.hacc with h | ⟨rfl, h⟩ | ⟨d, rfl, h⟩
    · exact absurd h hne
    · exact .inr (.inl ⟨u, hmove, h⟩)
    · exact .inr (.inr ⟨d, u, hmove, h⟩)

/-- Settles O18: during a frame a command leaves the serializer, a `PUT` fills PBUF, and the TX line advances it. -/
theorem noOpCutsAFrameShort : Obligations.NoOpCutsAFrameShort := by
  intro s hph
  refine ⟨fun i t hexec => ?ops, fun t hstep hreset => ?steps⟩
  case ops => exact ⟨(exec_cases hexec).tx_of_ne_idle hph, (exec_cases hexec).txlog⟩
  case steps =>
    have unchanged (h : t.tx = s.tx) : t.tx.cmd = s.tx.cmd ∧ t.tx.addr = s.tx.addr ∧ t.tx.len = s.tx.len ∧
        t.tx.pcnt = s.tx.pcnt ∧ t.tx.ckm = s.tx.ckm ∧ t.tx.ckv = s.tx.ckv ∧
        (t.tx.ph = s.tx.ph ∨ t.tx.ph = (txAdvance s.tx).ph) := by
      rw [h]
      exact ⟨rfl, rfl, rfl, rfl, rfl, rfl, .inl rfl⟩
    cases step_cases hstep with
    | keep ht | take _ _ _ _ _ _ _ _ _ _ ht | rxLine _ _ _ ht =>
      exact unchanged (by simpa using congrArg State.tx ht)
    | command i u _ ht => exact unchanged (ht.tx_of_ne_idle hph)
    | reset rest hs => exact absurd hs (hreset rest)
    | put b _ _ ht =>
      have htx : t.tx = { s.tx with pbuf := b, pbv := true } := congrArg State.tx ht
      rw [htx]
      exact ⟨rfl, rfl, rfl, rfl, rfl, rfl, .inl rfl⟩
    | txLine _ _ ht =>
      rcases s.block.txLineStep_cases with ⟨-, hline⟩ | ⟨b, -, hline⟩ <;> rw [hline] at ht
      · exact unchanged (by simpa using congrArg State.tx ht)
      · have htx : t.tx = txAdvance s.tx := congrArg State.tx ht
        obtain ⟨hcmd, haddr, hlen, hpcnt, hckm, hckv, -⟩ := txAdvance_latches s.tx
        rw [htx]
        exact ⟨hcmd, haddr, hlen, hpcnt, hckm, hckv, .inr rfl⟩

/-- Settles O58: of the cases of a step only the TX line's writes TXLOG. -/
theorem txlogGrowsByThePresentedByte : Obligations.TxlogGrowsByThePresentedByte := by
  intro s t hstep
  cases step_cases hstep with
  | keep ht | put _ _ _ ht | take _ _ _ _ _ _ _ _ _ _ ht | reset _ _ ht | rxLine _ _ _ ht =>
    exact .inl (by simpa using congrArg State.txlog ht)
  | command _ _ _ ht => exact .inl ht.txlog
  | txLine rest hs ht =>
    rcases s.block.txLineStep_cases with ⟨-, hline⟩ | ⟨b, hb, hline⟩ <;> rw [hline] at ht
    · exact .inl (by simpa using congrArg State.txlog ht)
    · exact .inr ⟨b, rest, hs, hb, by simpa using congrArg State.txlog ht⟩

/-- Settles O59: the cases of a step, by what each does to EVLOG. -/
theorem evlogIsAQueue : Obligations.EvlogIsAQueue := by
  intro s t hstep
  cases step_cases hstep with
  | keep ht | put _ _ _ ht | txLine _ _ ht => exact .inl (by simpa using congrArg State.evlog ht)
  | command _ _ _ ht => exact .inl ht.evlog
  | rxLine b rest hs ht =>
    have hlog : t.block.evlog = (s.block.rxLineStep b).evlog := congrArg State.evlog ht
    rw [← State.block_evlog t, hlog]
    exact (s.block.rxLineStep_evlog_cases b).imp_right fun ⟨e, he⟩ => .inl ⟨b, rest, e, hs, he⟩
  | take k turns th rest w ws hs hth hprog hevlog ht =>
    have hlog : t.evlog = ws := congrArg State.evlog ht
    exact .inr (.inr (.inl ⟨k, turns, w, th, rest, hs, hth, hprog, hlog ▸ hevlog⟩))
  | reset rest hs ht => exact .inr (.inr (.inr ⟨rest, hs, congrArg State.evlog ht⟩))

@[simp] theorem State.resetWith_addrLimit (limit : Addr) : (State.resetWith limit).addrLimit = limit := rfl

/-- No step of any agent writes ADDR_LIMIT (R6). -/
theorem step_addrLimit {s t : State} (h : step s = .next t) : t.addrLimit = s.addrLimit := by
  cases step_cases h with
  | keep ht | put _ _ _ ht | take _ _ _ _ _ _ _ _ _ _ ht | reset _ _ ht | txLine _ _ ht | rxLine _ _ _ ht =>
    simpa using congrArg State.addrLimit ht
  | command _ _ _ ht => exact ht.addrLimit

end Sys2Proof.Machine
end

section
/-! The sticky bits and STATUS (10_state.md R29, R34, 60_exceptions.md R200, R201, R204): where each bit stands, who
sets it, and that nothing else reads it. -/

namespace Sys2Proof.Machine

/-! ## STATUS bit by bit (R29) -/

section
variable (need inFrame busy rxcmd rxck illop addr : Bool)

/-- The word in the layout of STATUS (R29) with the given bits. -/
def statusLayout : Half :=
  0#5 ++ BitVec.ofBool need ++ BitVec.ofBool inFrame ++ BitVec.ofBool busy ++ 0#4 ++ BitVec.ofBool rxcmd ++
    BitVec.ofBool rxck ++ BitVec.ofBool illop ++ BitVec.ofBool addr

/-- The seven bits of the layout, by their numbers. -/
theorem statusLayout_getLsbD_lt {i : Nat} (hi : i < 11) :
    (statusLayout need inFrame busy rxcmd rxck illop addr).getLsbD i =
      [addr, illop, rxck, rxcmd, false, false, false, false, busy, inFrame, need][i] := by
  simp only [statusLayout, BitVec.getLsbD_append, BitVec.getLsbD_ofBool, BitVec.getLsbD_zero]
  interval_cases i <;> rfl

/-- Bits 11 and above read 0. -/
theorem statusLayout_getLsbD_ge {i : Nat} (hi : 11 ≤ i) :
    (statusLayout need inFrame busy rxcmd rxck illop addr).getLsbD i = false := by
  have h : i - 1 - 1 - 1 - 1 - 4 - 1 - 1 - 1 = i - 11 := by omega
  have hne : ¬ i < 1 ∧ ¬ i - 1 < 1 ∧ ¬ i - 1 - 1 < 1 ∧ ¬ i - 1 - 1 - 1 < 1 ∧ ¬ i - 1 - 1 - 1 - 1 < 4 ∧
      ¬ i - 1 - 1 - 1 - 1 - 4 < 1 ∧ ¬ i - 1 - 1 - 1 - 1 - 4 - 1 < 1 ∧ ¬ i - 1 - 1 - 1 - 1 - 4 - 1 - 1 < 1 := by
    omega
  simp only [statusLayout, BitVec.getLsbD_append, hne, if_false, h, BitVec.getLsbD_zero]

end

theorem State.status_eq_layout (s : State) :
    s.status = statusLayout s.txNeedData s.rxInFrame s.txBusy s.err.eRxcmd s.err.eRxck s.err.eIllop s.err.eAddr := rfl

theorem State.txNeedData_iff (s : State) : s.txNeedData = true ↔ s.tx.ph = .pay ∧ s.tx.pbv = false := by
  simp [State.txNeedData]

/-- Settles O41: each bit of the layout of STATUS is its own field, and there are no others. -/
theorem statusReadsItsBits : Obligations.StatusReadsItsBits := by
  intro s
  have hbit {i : Nat} (hi : i < 11) := statusLayout_getLsbD_lt s.txNeedData s.rxInFrame s.txBusy s.err.eRxcmd
    s.err.eRxck s.err.eIllop s.err.eAddr hi
  rw [s.status_eq_layout]
  refine ⟨hbit (by decide), hbit (by decide), hbit (by decide), hbit (by decide), fun i h4 h7 => ?middle, ?busy,
    ?inFrame, ?need, fun i h11 => statusLayout_getLsbD_ge _ _ _ _ _ _ _ h11, by decide⟩
  case middle =>
    rw [hbit (by omega)]
    interval_cases i <;> rfl
  case busy =>
    rw [hbit (by decide)]
    exact decide_eq_true_iff
  case inFrame =>
    rw [hbit (by decide)]
    exact decide_eq_true_iff
  case need =>
    rw [hbit (by decide)]
    exact s.txNeedData_iff

/-! ## Raising an error (R200, R201) -/

/-- An error marks the sticky bit whose STATUS bit is its code. -/
theorem Sticky.mark_eq (k : Sticky) (e : CodecError) :
    k.mark e =
      { eAddr := k.eAddr || decide (e.code = 0), eIllop := k.eIllop || decide (e.code = 1)
        eRxck := k.eRxck || decide (e.code = 2), eRxcmd := k.eRxcmd || decide (e.code = 3) } := by
  cases e <;> simp [Sticky.mark, CodecError.code]

/-- Setting sticky bits in the layout of STATUS. -/
theorem statusLayout_or (need inFrame busy rxcmd rxck illop addr rxcmd' rxck' illop' addr' : Bool) :
    statusLayout need inFrame busy (rxcmd || rxcmd') (rxck || rxck') (illop || illop') (addr || addr') =
      statusLayout need inFrame busy rxcmd rxck illop addr |||
        statusLayout false false false rxcmd' rxck' illop' addr' := by
  symm
  refine BitVec.or_append.trans ?_
  simp only [BitVec.or_append, BitVec.ofBool_or_ofBool, Bool.or_false]
  rfl

/-- The sticky bits of the layout stand at the four codes. -/
theorem statusLayout_of_code : ∀ code < 4,
    statusLayout false false false (decide (code = 3)) (decide (code = 2)) (decide (code = 1)) (decide (code = 0)) =
      1#16 <<< code := by
  decide

theorem code_lt_four (e : CodecError) : e.code < 4 := by
  cases e <;> simp [CodecError.code]

/-- Settles O42: the mark of an error is the bit of its code, which no live bit is computed from; `raise` writes the
sticky bits alone. -/
theorem raiseSetsTheBitOfItsCode : Obligations.RaiseSetsTheBitOfItsCode := by
  intro e s
  refine ⟨?bit, ?again, s.err.mark e, rfl⟩
  case bit =>
    calc (s.raise e).status
        = statusLayout s.txNeedData s.rxInFrame s.txBusy (s.err.mark e).eRxcmd (s.err.mark e).eRxck
            (s.err.mark e).eIllop (s.err.mark e).eAddr := rfl
      _ = s.status ||| (1#16 <<< e.code) := by
        rw [Sticky.mark_eq, statusLayout_or, statusLayout_of_code _ (code_lt_four e), s.status_eq_layout]
  case again =>
    have hmark : (s.err.mark e).mark e = s.err.mark e := by cases e <;> rfl
    exact congrArg (fun k => { s with err := k }) hmark

/-! ## The errors of a delivered byte (R204) -/

/-- The deframer raises an error in CMD and in K1 only, and each its own. -/
theorem rxReceive_error_cases (b : Byte) (r : Rx) :
    (rxReceive b r).error = none ∨ (r.ph = .cmd ∧ (rxReceive b r).error = some (.rxBadCommand b)) ∨
      (r.ph = .k1 ∧ ∃ ckrx ckcalc, (rxReceive b r).error = some (.rxChecksumMismatch ckrx ckcalc)) := by
  cases h : r.ph with
  | hunt0 => exact .inl (by rw [rxReceive_hunt0 b h])
  | hunt1 => exact .inl (by rw [rxReceive_hunt1 b h])
  | cmd =>
    by_cases hb : b = Config.cmdWrite ∨ b = Config.cmdRead
    · exact .inl (by rw [rxReceive_cmd_start b h hb])
    · exact .inr (.inl ⟨rfl, by rw [rxReceive_cmd_bad b h hb]⟩)
  | a0 => exact .inl (by rw [rxReceive_a0 b h])
  | a1 => exact .inl (by rw [rxReceive_a1 b h])
  | a2 => exact .inl (by rw [rxReceive_a2 b h])
  | a3 => exact .inl (by rw [rxReceive_a3 b h])
  | l0 => exact .inl (by rw [rxReceive_l0 b h])
  | l1 => exact .inl (by rw [rxReceive_l1 b h, rxHeaderEnd])
  | pay => exact .inl (by rw [rxReceive_pay b h, rxPayload])
  | k0 => exact .inl (by rw [rxReceive_k0 b h])
  | k1 =>
    rw [rxReceive_k1 b h]
    rcases ite_eq_or_eq (zext16 r.ckl ||| (zext16 b <<< 8) = r.acc) none
      (some (CodecError.rxChecksumMismatch (zext16 r.ckl ||| (zext16 b <<< 8)) r.acc)) with h | h
    · exact .inl h
    · exact .inr (.inr ⟨rfl, _, _, h⟩)

/-- Settles O36: the deframer's errors, and the bit that each marks. -/
theorem rxStepRaisesAtMostOneError : Obligations.RxStepRaisesAtMostOneError := by
  intro b s
  rw [State.rxLineStep_err]
  rcases rxReceive_error_cases b s.rx with h | ⟨hph, h⟩ | ⟨hph, ckrx, ckcalc, h⟩ <;> rw [h]
  · exact .inl rfl
  · exact .inr (.inl ⟨hph, rfl⟩)
  · exact .inr (.inr ⟨hph, rfl⟩)

/-! ## Who sets a sticky bit (R34) -/

/-- The sticky bits that a step leaves, where it neither resets the block nor clears them. -/
inductive StickyCase (s t : State) : Prop where
  | keep (ht : t.err = s.err)
  | eAddr (a : Addr) (i : Instr) (u : State) (hmove : s.nextMove = .command i u) (hi : isTxOpAt i a)
      (hidle : s.tx.ph = .idle) (ha : s.addrLimit < a) (ht : t.err = { s.err with eAddr := true })
  | eIllop (op : BitVec 4) (u : State) (hmove : s.nextMove = .command (.reserved op) u)
      (ht : t.err = { s.err with eIllop := true })
  | eRxck (b : Byte) (rest : List Turn) (hs : s.sched = .rxLine b :: rest) (hph : s.rx.ph = .k1)
      (ht : t.err = { s.err with eRxck := true })
  | eRxcmd (b : Byte) (rest : List Turn) (hs : s.sched = .rxLine b :: rest) (hph : s.rx.ph = .cmd)
      (ht : t.err = { s.err with eRxcmd := true })

theorem sticky_cases {s t : State} (h : step s = .next t) (hreset : ∀ rest, s.sched ≠ .resetInput :: rest)
    (hclr : ∀ u, s.nextMove ≠ .command .clrStatus u) : StickyCase s t := by
  cases step_cases h with
  | keep ht | txLine _ _ ht | put _ _ _ ht | take _ _ _ _ _ _ _ _ _ _ ht =>
    exact .keep (by simpa using congrArg State.err ht)
  | reset rest hs => exact absurd hs (hreset rest)
  | rxLine b rest hs ht =>
    have herr : t.err = (s.block.rxLineStep b).err := by simpa using congrArg State.err ht
    rcases rxStepRaisesAtMostOneError b s.block with hk | ⟨hph, hk⟩ | ⟨hph, hk⟩
    · exact .keep (herr.trans hk)
    · exact .eRxcmd b rest hs hph (herr.trans hk)
    · exact .eRxck b rest hs hph (herr.trans hk)
  | command i u hmove ht =>
    cases ht with
    | keep ht | ckClear _ ht | ckAdd _ _ ht | start _ _ _ _ _ _ _ _ _ ht | rxReset _ ht =>
      exact .keep (by simpa using congrArg State.err ht)
    | refuse a hi hidle ha ht =>
      exact .eAddr a i u hmove hi hidle ha (by simpa [Sticky.mark] using congrArg State.err ht)
    | clrStatus hi => exact absurd (hi ▸ hmove) (hclr u)
    | reserved op hi ht => exact .eIllop op u (hi ▸ hmove) (by simpa [Sticky.mark] using congrArg State.err ht)

/-- Settles O45: each case sets one bit, its own. -/
theorem stickyBitsHaveOneWriterEach : Obligations.StickyBitsHaveOneWriterEach := by
  intro s t hstep hreset hclr
  cases sticky_cases hstep hreset hclr with
  | keep ht => simp [ht]
  | eAddr a i u hmove hi hidle ha ht => simpa [ht] using fun _ => ⟨hidle, a, i, ⟨u, hmove⟩, ha, hi⟩
  | eIllop op u hmove ht => simpa [ht] using fun _ => ⟨op, u, hmove⟩
  | eRxck b rest hs hph ht => simpa [ht] using fun _ => ⟨hph, b, rest, hs⟩
  | eRxcmd b rest hs hph ht => simpa [ht] using fun _ => ⟨hph, b, rest, hs⟩

end Sys2Proof.Machine
end

section
/-! Independence (00_scope.md R6, 10_state.md R34, 20_memory.md R61, 70_reset_and_hazards.md R235): what a step does not
read, which steps commute, and the program that holds for ever. -/

namespace Sys2Proof.Machine

/-! ## An update that the host ports do not see -/

/-- Update the state that a move carries. -/
def Move.map (f : State → State) : Move → Move
  | .command i s => .command i (f s)
  | .done s => .done (f s)

/-- `f` keeps what a host thread's move reads, STATUS apart, and commutes with what it writes. -/
structure HostBlind (f : State → State) : Prop where
  threads (s : State) : (f s).threads = s.threads
  tx (s : State) : (f s).tx = s.tx
  hacc (s : State) : (f s).hacc = s.hacc
  evlog (s : State) : (f s).evlog = s.evlog
  withThreads (s : State) (v : List HostThread) : f (s.withThreads v) = (f s).withThreads v
  withTx (s : State) (v : Tx) : f (s.withTx v) = (f s).withTx v
  withEvlog (s : State) (v : List EventWord) : f (s.withEvlog v) = (f s).withEvlog v

section
variable {f : State → State} (hf : HostBlind f) (s : State) (k : Nat) (t : HostThread) (rest : List HostAction)
include hf

theorem HostBlind.setThread (t : HostThread) : (f s).setThread k t = f (s.setThread k t) := by
  rw [State.setThread, State.setThread, hf.withThreads, hf.threads]

theorem HostBlind.hostPut (b : Byte) : (f s).hostPut k t rest b = f (s.hostPut k t rest b) := by
  have hput : (f s).putByte b = f (s.putByte b) := by
    rw [State.putByte, State.putByte, hf.withTx, hf.tx]
  have hready : (f s).payloadReady = s.payloadReady := by
    rw [State.payloadReady, State.payloadReady, hf.tx]
  rw [State.hostPut, State.hostPut, hready, hput, State.retire, hf.setThread, apply_ite f]
  rfl

theorem HostBlind.hostTake : (f s).hostTake k t rest = f (s.hostTake k t rest) := by
  cases he : s.evlog with
  | nil => simp only [State.hostTake, hf.evlog, he]
  | cons w ws => simp only [State.hostTake, hf.evlog, he, State.retireRead, ← hf.withEvlog, hf.setThread]

theorem HostBlind.issueWord (w : CmdWord) : (f s).issueWord k t rest w = (s.issueWord k t rest w).map f := by
  have haccepts : (f s).accepts (decode w) = s.accepts (decode w) := by
    rw [State.accepts, State.accepts, hf.tx]
  rw [State.issueWord_eq, State.issueWord_eq, haccepts, State.retire, hf.setThread, Move.map, apply_ite f]
  rfl

/-- A host thread that does not read STATUS moves the same. -/
theorem HostBlind.hostMove
    (hstat : ∀ t, s.threads[k]? = some t → t.prog.head? = some .rdStat → (f s).status = s.status) :
    (f s).hostMove k = (s.hostMove k).map f := by
  unfold State.hostMove
  rw [hf.threads]
  cases hth : s.threads[k]? with
  | none => rfl
  | some t =>
    obtain ⟨prog, reads⟩ := t
    rcases prog with _ | ⟨_ | _ | _ | _ | _, rest⟩
    case nil => rfl
    case cons.issue w => exact hf.issueWord ..
    case cons.put b => exact congrArg Move.done (hf.hostPut ..)
    case cons.rdStat =>
      have hstatus := hstat _ hth rfl
      simp only [State.hostReadStatus, State.retireRead, hstatus, hf.setThread, Move.map]
    case cons.rdAcc => simp only [State.hostReadAcc, State.retireRead, hf.hacc, hf.setThread, Move.map]
    case cons.takeEv => exact congrArg Move.done (hf.hostTake ..)

end

/-! ## Sticky bits steer nothing (R34) -/

theorem hostBlind_withErr (e : Sticky) : HostBlind (·.withErr e) :=
  ⟨fun _ => rfl, fun _ => rfl, fun _ => rfl, fun _ => rfl, fun _ _ => rfl, fun _ _ => rfl, fun _ _ => rfl⟩

/-- Two outcomes are next states that agree up to the sticky bits. -/
def AgreeSansErr (o o' : Host.Outcome State Fault Refusal) : Prop :=
  ∃ t t', o = .next t ∧ o' = .next t' ∧ t.sansErr = t'.sansErr

section
variable (s : State) (e : Sticky)

theorem State.txLineStep_withErr : (s.withErr e).txLineStep = s.txLineStep.withErr e :=
  State.txLineStep_comm (f := (·.withErr e)) rfl fun _ _ => rfl

theorem State.rxLineStep_withErr_sansErr (b : Byte) :
    ((s.withErr e).rxLineStep b).sansErr = (s.rxLineStep b).sansErr := by
  rw [State.rxLineStep_eq, State.rxLineStep_eq]
  rfl

theorem State.txOp_withErr_sansErr (cmd : Byte) (a : Addr) (l n : Half) (m : CkMode) (k : Half) :
    ((s.withErr e).txOp cmd a l n m k).sansErr = (s.txOp cmd a l n m k).sansErr := by
  by_cases hidle : s.tx.ph = .idle
  · by_cases ha : s.addrLimit < a
    · rw [State.txOp_of_limit_lt hidle ha, State.txOp_of_limit_lt (s := s.withErr e) hidle ha]
      rfl
    · have hle := BitVec.not_lt.mp ha
      rw [State.txOp_of_le_limit hidle hle, State.txOp_of_le_limit (s := s.withErr e) hidle hle]
      rfl
  · rw [State.txOp_of_ne_idle hidle, State.txOp_of_ne_idle (s := s.withErr e) hidle]
    rfl

theorem exec_withErr (i : Instr) : AgreeSansErr (exec i s) (exec i (s.withErr e)) := by
  cases i with
  | txWrite a l => exact ⟨_, _, exec_txWrite .., exec_txWrite .., (State.txOp_withErr_sansErr ..).symm⟩
  | txRead a l => exact ⟨_, _, exec_txRead .., exec_txRead .., (State.txOp_withErr_sansErr ..).symm⟩
  | txBuild c a l n k => exact ⟨_, _, exec_txBuild .., exec_txBuild .., (State.txOp_withErr_sansErr ..).symm⟩
  | nop | ckClear | ckAdd | rxReset | clrStatus | reserved => exact ⟨_, _, rfl, rfl, rfl⟩

end

/-- Settles O46: turn by turn. A host thread that does not read STATUS makes the same move, and neither an instruction
nor a line's step reads a sticky bit. -/
theorem stickyBitsSteerNothingElse : Obligations.StickyBitsSteerNothingElse := by
  intro s e hread
  change AgreeSansErr (step s) (step (s.withErr e))
  cases hs : s.sched with
  | nil =>
    exact ⟨s, s.withErr e, step_of_done (State.nextMove_of_no_turn hs),
      step_of_done (State.nextMove_of_no_turn (s := s.withErr e) hs), rfl⟩
  | cons turn rest =>
    have hmove := State.nextMove_of_sched hs
    have hmove' := State.nextMove_of_sched (s := s.withErr e) hs
    cases turn with
    | txLine =>
      have hsame := congrArg State.sansErr ((s.withSched rest).txLineStep_withErr e)
      exact ⟨_, _, step_of_done hmove, step_of_done hmove', hsame.symm⟩
    | rxLine b =>
      exact ⟨_, _, step_of_done hmove, step_of_done hmove', (State.rxLineStep_withErr_sansErr ..).symm⟩
    | resetInput => exact ⟨_, _, step_of_done hmove, step_of_done hmove', rfl⟩
    | host k =>
      have hsame := (hostBlind_withErr e).hostMove (s.withSched rest) k
        fun t ht hp => absurd hp (hread k rest t hs ht)
      replace hmove' := hmove'.trans hsame
      cases hm : (s.withSched rest).hostMove k with
      | done u =>
        rw [hm] at hmove'
        exact ⟨_, _, step_of_done (hmove.trans hm), step_of_done hmove', rfl⟩
      | command i u =>
        rw [hm] at hmove'
        obtain ⟨t, t', ht, ht', hagree⟩ := exec_withErr u e i
        exact ⟨t, t', (step_of_command (hmove.trans hm)).trans ht, (step_of_command hmove').trans ht', hagree⟩

/-! ## ADDR_LIMIT is read by the address check alone (R6) -/

/-- The state with another ADDR_LIMIT. -/
def State.withLimit (s : State) (limit : Addr) : State := { s with addrLimit := limit }

theorem hostBlind_withLimit (limit : Addr) : HostBlind (·.withLimit limit) :=
  ⟨fun _ => rfl, fun _ => rfl, fun _ => rfl, fun _ => rfl, fun _ _ => rfl, fun _ _ => rfl, fun _ _ => rfl⟩

theorem State.txLineStep_withLimit (s : State) (limit : Addr) :
    (s.withLimit limit).txLineStep = s.txLineStep.withLimit limit :=
  State.txLineStep_comm (f := (·.withLimit limit)) rfl fun _ _ => rfl

theorem State.rxLineStep_withLimit (s : State) (limit : Addr) (b : Byte) :
    (s.withLimit limit).rxLineStep b = (s.rxLineStep b).withLimit limit := by
  rw [State.rxLineStep_eq, State.rxLineStep_eq]
  rfl

theorem exec_withLimit {i : Instr} {s t : State} (limit : Addr) (hi : isTxOp i = false) (h : exec i s = .next t) :
    exec i (s.withLimit limit) = .next (t.withLimit limit) := by
  cases i with
  | txWrite | txRead | txBuild => cases hi
  | nop | ckClear | ckAdd | rxReset | clrStatus | reserved => obtain rfl := Host.Outcome.next.inj h; rfl

/-- A move but a TX op's is the same whatever ADDR_LIMIT is. -/
theorem State.moveOf_withLimit (s : State) (limit : Addr) (turn : Turn) :
    (s.withLimit limit).moveOf turn = (s.moveOf turn).map (·.withLimit limit) := by
  cases turn with
  | host k => exact (hostBlind_withLimit limit).hostMove s k fun _ _ _ => rfl
  | txLine => exact congrArg Move.done (s.txLineStep_withLimit limit)
  | rxLine b => exact congrArg Move.done (s.rxLineStep_withLimit limit b)
  | resetInput => rfl

theorem State.nextMove_withLimit (s : State) (limit : Addr) :
    (s.withLimit limit).nextMove = s.nextMove.map (·.withLimit limit) := by
  cases hs : s.sched with
  | nil =>
    have hs' : (s.withLimit limit).sched = [] := hs
    rw [State.nextMove_of_no_turn hs, State.nextMove_of_no_turn hs', Move.map]
  | cons turn rest =>
    have hs' : (s.withLimit limit).sched = turn :: rest := hs
    rw [State.nextMove_of_sched hs, State.nextMove_of_sched hs']
    exact (s.withSched rest).moveOf_withLimit limit turn

/-- Settles O60: no step writes ADDR_LIMIT, and no move but a TX op's reads it. -/
theorem addrLimitIsAParameter : Obligations.AddrLimitIsAParameter := by
  refine ⟨rfl, fun _ => rfl, fun s t h => step_addrLimit h, fun s t limit hstep hop => ?unread⟩
  case unread =>
    have hmove := s.nextMove_withLimit limit
    cases hm : s.nextMove with
    | done u =>
      rw [hm] at hmove
      obtain rfl := Host.Outcome.next.inj ((step_of_done hm).symm.trans hstep)
      exact step_of_done hmove
    | command i u =>
      rw [hm] at hmove
      rw [step_of_command hm] at hstep
      exact (step_of_command hmove).trans (exec_withLimit limit (hop i u hm) hstep)

/-! ## The two directions commute (R61) -/

/-- Marks of sticky bits are in no order. -/
theorem Sticky.mark_comm (k : Sticky) (e e' : CodecError) : (k.mark e).mark e' = (k.mark e').mark e := by
  simp only [Sticky.mark_eq, Bool.or_right_comm]

theorem Sticky.markAny_mark (k : Sticky) (e : CodecError) (o : Option CodecError) :
    (k.mark e).markAny o = (k.markAny o).mark e := by
  cases o with
  | none => rfl
  | some e' => exact k.mark_comm e e'

section
variable (b : Byte) (s : State)

theorem State.txLineStep_rxLineStep_comm : (s.txLineStep).rxLineStep b = (s.rxLineStep b).txLineStep := by
  refine (State.txLineStep_comm (State.rxLineStep_tx b s) fun t bs => ?_).symm
  rw [State.rxLineStep_eq, State.rxLineStep_eq]

theorem State.putByte_rxLineStep_comm (d : Byte) : (s.putByte d).rxLineStep b = (s.rxLineStep b).putByte d := by
  rw [State.rxLineStep_eq, State.rxLineStep_eq]
  rfl

theorem State.raise_rxLineStep_comm (e : CodecError) : (s.raise e).rxLineStep b = (s.rxLineStep b).raise e := by
  rw [State.rxLineStep_eq, State.rxLineStep_eq, State.raise_err, Sticky.markAny_mark]
  rfl

theorem State.withTx_rxLineStep_comm (v : Tx) : (s.withTx v).rxLineStep b = (s.rxLineStep b).withTx v := by
  rw [State.rxLineStep_eq, State.rxLineStep_eq]
  rfl

theorem State.withHacc_rxLineStep_comm (v : Half) : (s.withHacc v).rxLineStep b = (s.rxLineStep b).withHacc v := by
  rw [State.rxLineStep_eq, State.rxLineStep_eq]
  rfl

theorem State.txOp_rxLineStep_comm (cmd : Byte) (a : Addr) (l n : Half) (m : CkMode) (k : Half) :
    (s.txOp cmd a l n m k).rxLineStep b = (s.rxLineStep b).txOp cmd a l n m k := by
  unfold State.txOp
  simp only [State.rxLineStep_tx, State.rxLineStep_addrLimit]
  split
  · split
    · exact s.raise_rxLineStep_comm b _
    · exact s.withTx_rxLineStep_comm b _
  · rfl

end

/-- Settles O56: the lines' steps, a payload transfer and every op but the two write apart from the deframer, and the
sticky bits they set are in no order. -/
theorem txAndRxStepsCommute : Obligations.TxAndRxStepsCommute := by
  intro b d s
  refine ⟨s.txLineStep_rxLineStep_comm b, s.putByte_rxLineStep_comm b d, fun i t hrx hclr hexec => ?ops⟩
  case ops =>
    have ht := exec_next_cases hexec
    cases i with
    | nop => rw [ht, exec_nop]
    | ckClear => rw [ht, s.withHacc_rxLineStep_comm b]; rfl
    | ckAdd d => rw [ht, s.withHacc_rxLineStep_comm b, exec_ckAdd, State.rxLineStep_hacc]; rfl
    | txWrite a l => rw [ht, exec_txWrite, s.txOp_rxLineStep_comm b]
    | txRead a l => rw [ht, exec_txRead, s.txOp_rxLineStep_comm b]
    | txBuild c a l n k => rw [ht, exec_txBuild, s.txOp_rxLineStep_comm b]
    | rxReset => exact absurd rfl hrx
    | clrStatus => exact absurd rfl hclr
    | reserved op => rw [ht, s.raise_rxLineStep_comm b]; rfl

/-! ## A program that holds for ever (R235) -/

/-- The turns of a blocked thread change nothing while a frame is in progress. -/
theorem State.hostMove_of_blocked {s : State} {k : Nat} (hph : s.tx.ph ≠ .idle)
    (hblocked : ∀ t ∈ s.threads, t.blocked) :
    s.hostMove k = .done s ∨ ∃ i, s.hostMove k = .command i s ∧ s.accepts i = false := by
  cases hth : s.threads[k]? with
  | none => exact .inl (by simp only [State.hostMove, hth])
  | some t =>
    obtain ⟨prog, reads⟩ := t
    rcases hblocked _ (List.mem_of_getElem? hth) with rfl | ⟨w, rest, rfl, hop⟩
    · exact .inl (by simp only [State.hostMove, hth])
    · have hheld : s.accepts (decode w) = false := (s.accepts_eq_false_iff _).mpr ⟨hop, hph⟩
      refine .inr ⟨decode w, ?_, hheld⟩
      rw [State.hostMove_issue hth, State.issueWord, hheld]
      rfl

/-- While a frame waits for a payload byte, a turn of the TX line or of a blocked thread is used up and no more. -/
theorem step_of_waiting {s : State} (hph : s.tx.ph = .pay) (hpbv : s.tx.pbv = false)
    (hblocked : ∀ t ∈ s.threads, t.blocked) (hturns : ∀ turn ∈ s.sched, turn = .txLine ∨ ∃ k, turn = .host k) :
    step s = .next { s with sched := s.sched.drop 1 } := by
  cases hs : s.sched with
  | nil =>
    rw [step_of_done (State.nextMove_of_no_turn hs), List.drop_nil, ← hs]
  | cons turn rest =>
    have hmove := State.nextMove_of_sched hs
    rcases hturns turn (hs ▸ List.mem_cons_self) with rfl | ⟨k, rfl⟩
    · have hsilent : (s.withSched rest).txLineStep = s.withSched rest :=
        State.txLineStep_of_silent ((txPresented_eq_none _).mpr (.inr ⟨hph, hpbv⟩))
      rw [step_of_done hmove, hsilent]
      rfl
    · have hne : (s.withSched rest).tx.ph ≠ .idle := by simp [hph]
      rcases State.hostMove_of_blocked (k := k) hne hblocked with h | ⟨i, h, hheld⟩
      · exact step_of_done (hmove.trans h)
      · exact (step_of_command (hmove.trans h)).trans (exec_of_not_accepts hheld)

theorem run_succ_of_step {M : Host.Core} {s u : M.State} (h : M.step s = .next u) (n : Nat) :
    M.run (n + 1) s = M.run n u := by
  simp only [Host.Core.run, h]

/-- Settles O57: by induction on the number of steps; a step leaves all that it depends on. -/
theorem heldThreadsHoldForEver : Obligations.HeldThreadsHoldForEver := by
  intro n
  induction n with
  | zero => intro s _ _ _ _; rfl
  | succ n ih =>
    intro s hph hpbv hblocked hturns
    have hstep : core.step s = .next { s with sched := s.sched.drop 1 } := step_of_waiting hph hpbv hblocked hturns
    have hrest := ih { s with sched := s.sched.drop 1 } hph hpbv hblocked
      fun turn h => hturns turn (List.mem_of_mem_drop h)
    refine ((run_succ_of_step hstep n).trans hrest).trans ?_
    rw [List.drop_drop, Nat.add_comm 1 n]

end Sys2Proof.Machine
end

section
/-! The invariant of the registers (10_state.md R28, 42_transmit.md R121 to R129, 43_receive.md R154 to R159): every
operation keeps it, and so every step does. -/

namespace Sys2Proof.Machine

/-! ## The serializer -/

section
variable {limit : Addr} {t : Tx}

/-- In IDLE only PBV is constrained. -/
theorem TxInv.of_idle (hph : t.ph = .idle) (hpbv : t.pbv = false) : TxInv limit t := by
  refine ⟨fun h => ?_, fun h => absurd hph h, fun h => absurd hph h, fun h => ?_, fun h => ?_, fun h => ?_⟩
  · rw [hpbv] at h
    cases h
  all_goals rw [hph] at h
  · cases h
  · cases h
  · rcases h with h | h <;> cases h

theorem txInv_reset (limit : Addr) : TxInv limit Tx.reset := .of_idle rfl rfl

/-- The registers that an accepted TX op latches (R121). -/
theorem txInv_start {cmd : Byte} {a : Addr} (hcmd : cmd = Config.cmdWrite ∨ cmd = Config.cmdRead) (ha : a ≤ limit)
    (l n : Half) (m : CkMode) (k : Half) (t : Tx) : TxInv limit (txStart cmd a l n m k t) where
  pbv_pay h := by cases h
  cmd_enum _ := hcmd
  addr_limit _ := ha
  header _ := ⟨rfl, rfl⟩
  pay_idx h := by cases h
  trailer_idx h := by rcases h with h | h <;> cases h

/-- A payload byte goes into PBUF in PAY only (R128). -/
theorem TxInv.put (h : TxInv limit t) (hph : t.ph = .pay) (b : Byte) :
    TxInv limit { t with pbuf := b, pbv := true } where
  pbv_pay _ := hph
  cmd_enum := h.cmd_enum
  addr_limit := h.addr_limit
  header := h.header
  pay_idx := h.pay_idx
  trailer_idx := h.trailer_idx

theorem TxInv.pbv_of_ne_pay (h : TxInv limit t) (hpay : t.ph ≠ .pay) : t.pbv = false :=
  Bool.eq_false_iff.mpr fun hpbv => hpay (h.pbv_pay hpbv)

/-- A move to another phase, with what that phase asks for. -/
theorem TxInv.with_ph (h : TxInv limit t) (hidle : t.ph ≠ .idle) (hpay : t.ph ≠ .pay) {q : TxPhase}
    (hheader : q.inHeader = true → t.idx = 0#16 ∧ t.acc = 0#16) (hidx : q = .pay → t.idx < t.pcnt)
    (htrailer : q = .k0 ∨ q = .k1 → t.idx = t.pcnt) : TxInv limit { t with ph := q } where
  pbv_pay hpbv := by
    rw [h.pbv_of_ne_pay hpay] at hpbv
    cases hpbv
  cmd_enum _ := h.cmd_enum hidle
  addr_limit _ := h.addr_limit hidle
  header := hheader
  pay_idx := hidx
  trailer_idx := htrailer

/-- From S0 to L0 the successor is a header phase. -/
theorem txAdvance_inHeader (hph : t.ph.inHeader = true) (hl1 : t.ph ≠ .l1) : (txAdvance t).ph.inHeader = true := by
  unfold txAdvance
  cases h : t.ph <;> simp_all [TxPhase.inHeader]

/-- The sending of a payload byte (R129): TXIDX reaches the count in K0 and stays below it in PAY. -/
theorem TxInv.send_payload (h : TxInv limit t) (hpay : t.ph = .pay) : TxInv limit (txSendPayload t) where
  pbv_pay hpbv := by cases hpbv
  cmd_enum _ := h.cmd_enum (by simp [hpay])
  addr_limit _ := h.addr_limit (by simp [hpay])
  header hq := by
    rw [txSendPayload_ph] at hq
    split at hq <;> cases hq
  pay_idx hq := by
    have hlt := h.pay_idx hpay
    rw [txSendPayload_ph] at hq
    rw [txSendPayload_idx, txSendPayload_pcnt]
    split at hq
    · cases hq
    · bv_omega
  trailer_idx hq := by
    rw [txSendPayload_ph] at hq
    split at hq
    · assumption
    · rcases hq with hq | hq <;> cases hq

/-- The end of the header (R127): PAY where payload bytes are due, else K0. -/
theorem TxInv.headerEnd (h : TxInv limit t) (hph : t.ph = .l1) :
    TxInv limit { t with ph := if t.pcnt = 0#16 then .k0 else .pay } := by
  obtain ⟨hidx, hacc⟩ := h.header (by rw [hph]; rfl)
  split
  next hz =>
    exact h.with_ph (by simp [hph]) (by simp [hph]) (by simp [hidx, hacc]) (by simp) fun _ => hidx.trans hz.symm
  next hz =>
    refine h.with_ph (by simp [hph]) (by simp [hph]) (by simp [hidx, hacc]) (fun _ => ?_) (by simp)
    rw [hidx]
    bv_omega

/-- From S0 to L0 the successor is a header phase as well. -/
theorem TxInv.header_advance (h : TxInv limit t) (hph : t.ph.inHeader = true) (hl1 : t.ph ≠ .l1) :
    TxInv limit (txAdvance t) := by
  have hne : ∀ p : TxPhase, p.inHeader = true → p ≠ .idle ∧ p ≠ .pay ∧ p ≠ .k0 ∧ p ≠ .k1 := by
    intro p
    cases p <;> decide
  obtain ⟨hidle, hpay, -, -⟩ := hne _ hph
  obtain ⟨-, hpay', hk0', hk1'⟩ := hne _ (txAdvance_inHeader hph hl1)
  rw [txAdvance_eq_of_ne_pay hpay]
  exact h.with_ph hidle hpay (fun _ => h.header hph) (fun hq => absurd hq hpay') fun hq => (hq.elim hk0' hk1').elim

/-- Advancing keeps the invariant (R127, R129). -/
theorem TxInv.advance (h : TxInv limit t) : TxInv limit (txAdvance t) := by
  cases hph : t.ph with
  | idle =>
    have hsame : txAdvance t = t := by simp only [txAdvance, hph]
    rwa [hsame]
  | s0 | s1 | cmd | a0 | a1 | a2 | a3 | l0 => exact h.header_advance (by rw [hph]; rfl) (by simp [hph])
  | l1 =>
    rw [txAdvance_eq_of_ne_pay (by simp [hph]), txAdvance_ph_l1 hph]
    exact h.headerEnd hph
  | pay =>
    rw [txAdvance_pay hph]
    exact h.send_payload hph
  | k0 =>
    rw [txAdvance_eq_of_ne_pay (by simp [hph]), txAdvance_ph_k0 hph]
    exact h.with_ph (by simp [hph]) (by simp [hph]) nofun nofun fun _ => h.trailer_idx (.inl hph)
  | k1 =>
    rw [txAdvance_eq_of_ne_pay (by simp [hph]), txAdvance_ph_k1 hph]
    exact .of_idle rfl (h.pbv_of_ne_pay (by simp [hph]))

end

/-! ## The deframer -/

section
variable {r : Rx}

/-- Outside a frame the deframer's registers are free: each is written again before it is read. -/
theorem RxInv.of_no_frame (hph : r.ph = .hunt0 ∨ r.ph = .hunt1 ∨ r.ph = .cmd) : RxInv r := by
  have hphase : r.ph.inHeader = false ∧ r.ph.pastHeader = false ∧ r.ph.addrBits = 32 ∧ r.ph ≠ .l1 ∧ r.ph ≠ .pay ∧
      r.ph ≠ .k0 ∧ r.ph ≠ .k1 := by
    rcases hph with h | h | h <;> rw [h] <;> decide
  obtain ⟨hheader, hpast, hbits, hl1, hpay, hk0, hk1⟩ := hphase
  constructor
  case addr_bits => rw [hbits]; exact r.addr.isLt
  all_goals simp [hheader, hpast, hl1, hpay, hk0, hk1]

theorem rxInv_reset : RxInv Rx.reset := .of_no_frame (.inl rfl)

/-- What the phases from A0 to L1 ask for. -/
theorem RxInv.of_header (hph : r.ph.inHeader = true) (hcmd : r.cmd = Config.cmdWrite ∨ r.cmd = Config.cmdRead)
    (hzero : r.idx = 0#16 ∧ r.acc = 0#16) (haddr : r.addr.toNat < 2 ^ r.ph.addrBits)
    (hlen : r.ph = .l1 → r.len.toNat < 256) : RxInv r := by
  have hphase : ∀ p : RxPhase, p.inHeader = true → p.pastHeader = false ∧ p ≠ .pay ∧ p ≠ .k0 ∧ p ≠ .k1 := by
    intro p
    cases p <;> decide
  obtain ⟨hpast, hpay, hk0, hk1⟩ := hphase _ hph
  refine ⟨fun _ => hcmd, fun _ => hzero, haddr, hlen, ?_, ?_, ?_⟩ <;> simp [hpast, hpay, hk0, hk1]

/-- What the phases from PAY to K1 ask for. -/
theorem RxInv.of_past (hph : r.ph.pastHeader = true) (hcmd : r.cmd = Config.cmdWrite ∨ r.cmd = Config.cmdRead)
    (hpcnt : r.pcnt = rxPayloadCount r.cmd r.len) (hidx : r.ph = .pay → r.idx < r.pcnt)
    (htrailer : r.ph = .k0 ∨ r.ph = .k1 → r.idx = r.pcnt) : RxInv r := by
  have hphase : ∀ p : RxPhase, p.pastHeader = true → p.inHeader = false ∧ p.addrBits = 32 ∧ p ≠ .l1 := by
    intro p
    cases p <;> decide
  obtain ⟨hheader, hbits, hl1⟩ := hphase _ hph
  have haddr : r.addr.toNat < 2 ^ r.ph.addrBits := by
    rw [hbits]
    exact r.addr.isLt
  refine ⟨fun _ => hcmd, ?_, haddr, ?_, fun _ => hpcnt, hidx, htrailer⟩ <;> simp [hheader, hl1]

/-- An address byte at bit `n` fills the next eight bits (R155). -/
theorem addr_or_byte_lt {a : Addr} {n : Nat} (ha : a.toNat < 2 ^ n) (b : Byte) :
    (a ||| (zext32 b <<< n)).toNat < 2 ^ (n + 8) := by
  rw [BitVec.toNat_or]
  refine Nat.or_lt_two_pow (ha.trans_le (Nat.pow_le_pow_right (by decide) (Nat.le_add_right n 8))) ?_
  rw [BitVec.toNat_shiftLeft]
  refine (Nat.mod_le _ _).trans_lt ?_
  rw [Nat.shiftLeft_eq, zext32, BitVec.toNat_setWidth, Nat.pow_add, Nat.mul_comm (2 ^ n)]
  exact Nat.mul_lt_mul_of_pos_right ((Nat.mod_le _ _).trans_lt b.isLt) (Nat.two_pow_pos n)

/-- An address byte (R155), in the phase at bit `n`. -/
theorem RxInv.address (h : RxInv r) (hph : r.ph.inHeader = true) {n : Nat} (hbits : r.ph.addrBits = n) {q : RxPhase}
    (hq : q.inHeader = true) (hl1 : q ≠ .l1) (hnext : q.addrBits = n + 8) (b : Byte) :
    RxInv { r with addr := r.addr ||| (zext32 b <<< n), ph := q } :=
  .of_header hq (h.cmd_enum (.inl hph)) (h.header hph) (hnext ▸ addr_or_byte_lt (hbits ▸ h.addr_bits) b)
    fun hc => absurd hc hl1

/-- The end of the header (R156): PAY where payload bytes are due, else K0. -/
theorem RxInv.headerEnd (h : RxInv r) (hph : r.ph = .l1) (b : Byte) : RxInv (rxHeaderEnd b r).rx := by
  have hcmd := h.cmd_enum (.inl (by rw [hph]; rfl))
  obtain ⟨hidx, -⟩ := h.header (by rw [hph]; rfl)
  have hidx' : (rxHeaderEnd b r).rx.idx = 0#16 := hidx
  by_cases hz : (rxHeaderEnd b r).rx.pcnt = 0#16
  · have hq : (rxHeaderEnd b r).rx.ph = .k0 := if_pos hz
    exact .of_past (by rw [hq]; rfl) hcmd rfl (by simp [hq]) fun _ => by rw [hidx', hz]
  · have hq : (rxHeaderEnd b r).rx.ph = .pay := if_neg hz
    exact .of_past (by rw [hq]; rfl) hcmd rfl (fun _ => by rw [hidx']; bv_omega) (by simp [hq])

/-- A payload byte (R157): RXIDX reaches the count in K0 and stays below it in PAY. -/
theorem RxInv.payload (h : RxInv r) (hph : r.ph = .pay) (b : Byte) : RxInv (rxPayload b r).rx := by
  have hpast : r.ph.pastHeader = true := by rw [hph]; rfl
  have hlt := h.pay_idx hph
  have hidx : (rxPayload b r).rx.idx = r.idx + 1#16 := rfl
  have hpcnt : (rxPayload b r).rx.pcnt = r.pcnt := rfl
  by_cases hlast : r.idx + 1#16 = r.pcnt
  · have hq : (rxPayload b r).rx.ph = .k0 := if_pos hlast
    exact .of_past (by rw [hq]; rfl) (h.cmd_enum (.inr hpast)) (h.pcnt hpast) (by simp [hq]) fun _ => hlast
  · have hq : (rxPayload b r).rx.ph = .pay := if_neg hlast
    exact .of_past (by rw [hq]; rfl) (h.cmd_enum (.inr hpast)) (h.pcnt hpast)
      (fun _ => by rw [hidx, hpcnt]; bv_omega) (by simp [hq])

/-- Every delivered byte keeps the invariant. -/
theorem RxInv.receive (h : RxInv r) (b : Byte) : RxInv (rxReceive b r).rx := by
  cases hph : r.ph with
  | hunt0 =>
    rw [rxReceive_hunt0 b hph]
    exact .of_no_frame (huntNext_no_frame b)
  | hunt1 =>
    rw [rxReceive_hunt1 b hph]
    refine .of_no_frame ?_
    split
    · exact .inr (.inr rfl)
    · exact huntNext_no_frame b
  | cmd =>
    by_cases hb : b = Config.cmdWrite ∨ b = Config.cmdRead
    · rw [rxReceive_cmd_start b hph hb]
      exact .of_header rfl hb ⟨rfl, rfl⟩ Nat.zero_lt_one (by simp)
    · rw [rxReceive_cmd_bad b hph hb]
      exact .of_no_frame (huntNext_no_frame b)
  | a0 =>
    rw [rxReceive_a0 b hph, ← BitVec.shiftLeft_zero (zext32 b)]
    exact h.address (by rw [hph]; rfl) (by rw [hph]; rfl) rfl (by decide) rfl b
  | a1 =>
    rw [rxReceive_a1 b hph]
    exact h.address (by rw [hph]; rfl) (by rw [hph]; rfl) rfl (by decide) rfl b
  | a2 =>
    rw [rxReceive_a2 b hph]
    exact h.address (by rw [hph]; rfl) (by rw [hph]; rfl) rfl (by decide) rfl b
  | a3 =>
    rw [rxReceive_a3 b hph]
    exact h.address (by rw [hph]; rfl) (by rw [hph]; rfl) rfl (by decide) rfl b
  | l0 =>
    have hheader : r.ph.inHeader = true := by rw [hph]; rfl
    rw [rxReceive_l0 b hph]
    exact .of_header rfl (h.cmd_enum (.inl hheader)) (h.header hheader) r.addr.isLt
      fun _ => (zext16_toNat b).trans_lt b.isLt
  | l1 =>
    rw [rxReceive_l1 b hph]
    exact h.headerEnd hph b
  | pay =>
    rw [rxReceive_pay b hph]
    exact h.payload hph b
  | k0 =>
    have hpast : r.ph.pastHeader = true := by rw [hph]; rfl
    rw [rxReceive_k0 b hph]
    exact .of_past rfl (h.cmd_enum (.inr hpast)) (h.pcnt hpast) (by simp) fun _ => h.trailer_idx (.inl hph)
  | k1 =>
    rw [rxReceive_k1 b hph]
    exact .of_no_frame (.inl rfl)

end

/-! ## The block -/

/-- The invariant is about the block. -/
theorem State.Inv.of_block {s : State} (h : s.block.Inv) : s.Inv := ⟨h.tx, h.rx, h.evlog⟩

/-- What a delivered byte posts is the word of an event. -/
theorem eventWords_are_words (o : Option Event) : ∀ w ∈ eventWords o, ∃ e, w = eventWord e := by
  intro w hw
  cases o with
  | none => cases hw
  | some e => exact ⟨e, List.mem_singleton.mp hw⟩

section
variable {s t : State}

theorem State.Inv.txLineStep (h : s.Inv) : s.txLineStep.Inv := by
  rcases s.txLineStep_cases with ⟨-, hstep⟩ | ⟨b, -, hstep⟩ <;> rw [hstep]
  · exact h
  · exact ⟨h.tx.advance, h.rx, h.evlog⟩

theorem State.Inv.rxLineStep (h : s.Inv) (b : Byte) : (s.rxLineStep b).Inv := by
  rw [s.rxLineStep_eq b]
  refine ⟨h.tx, h.rx.receive b, fun w hw => ?_⟩
  rcases List.mem_append.mp hw with hw | hw
  · exact h.evlog w hw
  · exact eventWords_are_words _ w hw

theorem State.Inv.exec {i : Instr} (h : s.Inv) (hexec : ExecCase i s t) : t.Inv := by
  cases hexec with
  | start cmd a l n m k hcmd _ ha ht =>
    subst ht
    exact ⟨txInv_start hcmd ha l n m k s.tx, h.rx, h.evlog⟩
  | rxReset _ ht =>
    subst ht
    exact ⟨h.tx, .of_no_frame (.inl rfl), h.evlog⟩
  | keep ht | ckClear _ ht | ckAdd _ _ ht | refuse _ _ _ _ ht | clrStatus _ ht | reserved _ _ ht =>
    subst ht
    exact ⟨h.tx, h.rx, h.evlog⟩

end

theorem State.inv_resetWith (limit : Addr) : (State.resetWith limit).Inv :=
  ⟨txInv_reset limit, rxInv_reset, fun _ hw => nomatch hw⟩

/-- Settles O52: IDLE and HUNT0 constrain nothing, and EVLOG is empty. -/
theorem registerInvariantAtReset : Obligations.RegisterInvariantAtReset :=
  ⟨State.inv_resetWith Config.addrLimit, State.inv_resetWith⟩

/-- Settles O51: each action of an agent keeps the invariant of the block. -/
theorem registerInvariantKept : Obligations.RegisterInvariantKept := by
  intro s t h hstep
  have hblock : s.block.Inv := ⟨h.tx, h.rx, h.evlog⟩
  apply State.Inv.of_block
  cases step_cases hstep with
  | keep ht => rwa [ht]
  | txLine _ _ ht => rw [ht]; exact hblock.txLineStep
  | rxLine b _ _ ht => rw [ht]; exact hblock.rxLineStep b
  | reset _ _ ht =>
    obtain ⟨htx, hrx, hevlog⟩ := State.inv_resetWith s.addrLimit
    rw [ht]
    exact ⟨htx, hrx, hevlog⟩
  | put b hph _ ht => rw [ht]; exact ⟨hblock.tx.put hph b, hblock.rx, hblock.evlog⟩
  | take _ _ _ _ w ws _ _ _ hevlog ht =>
    rw [ht]
    exact ⟨hblock.tx, hblock.rx, fun v hv => hblock.evlog v (hevlog ▸ List.mem_cons_of_mem w hv)⟩
  | command _ _ _ ht => exact hblock.exec ht

end Sys2Proof.Machine
end

section
/-! The frame in progress (42_transmit.md R126, R129, R131): what the TX line has taken of it is its beginning, and its
last byte completes it. -/

namespace Sys2Proof.Machine

/-! ## The byte presented (R126) -/

theorem txCk_eq_ite (t : Tx) : txCk t = if t.ckm = .acc then t.acc else t.ckv := by
  unfold txCk
  cases t.ckm <;> rfl

/-- Settles O19: `txPresented`, phase by phase. -/
theorem presentedByteOfEachPhase : Obligations.PresentedByteOfEachPhase := by
  intro t ck
  have hck : ck = txCk t := (txCk_eq_ite t).symm
  rw [hck]
  refine ⟨?_, ?_, ?_, ?_, ?_, ?_, ?_, ?_, ?_, ?_, fun h hpbv => txPresented_pay_held h hpbv,
    fun h hpbv => (txPresented_eq_none t).mpr (.inr ⟨h, hpbv⟩), ?_, ?_⟩ <;> intro h <;>
    simp only [txPresented, h, Config.sync0, Config.sync1]

/-- A TX line step is enabled where `txPresented` gives a byte (R54). -/
theorem txPresented_enabled_iff (t : Tx) :
    (t.ph ≠ .idle ∧ t.ph ≠ .pay) ∨ (t.ph = .pay ∧ t.pbv = true) ↔ txPresented t ≠ none := by
  rw [ne_eq (txPresented t), txPresented_eq_none]
  cases t.pbv <;> by_cases h : t.ph = .pay <;> simp [h]

/-- Settles O22: the condition is that a byte is presented, and the step takes that byte. -/
theorem txLineStepTakesThePresentedByte : Obligations.TxLineStepTakesThePresentedByte := by
  intro s
  simp only [txPresented_enabled_iff]
  split
  next h =>
    obtain ⟨b, hb⟩ := Option.ne_none_iff_exists'.mp h
    exact ⟨b, hb, State.txLineStep_of_presented hb⟩
  next h => exact State.txLineStep_of_silent (not_not.mp h)

/-! ## Where the presented byte stands in the frame (R80) -/

/-- The header and the payload of a frame, without its checksum field. -/
theorem frame_take_payload (c : Byte) (a : Addr) (l : Half) (p : List Byte) (k : Half) :
    (frame c a l p k).take (9 + p.length) = frameHeader c a l ++ p := by
  rw [frame_eq_header_payload_trailer, ← List.append_assoc]
  exact List.take_left' (by simp)

/-- The checksum field of a frame stands after its payload. -/
theorem frame_getElem_trailer (c : Byte) (a : Addr) (l : Half) (p : List Byte) (k : Half) (i : Nat) :
    (frame c a l p k)[9 + p.length + i]? = (le16 k)[i]? := by
  rw [frame_eq_header_payload_trailer, ← List.append_assoc, List.getElem?_append_right (by simp)]
  congr 1
  simp only [List.length_append, frameHeader_length, Nat.add_sub_cancel_left]

section
variable {t : Tx} {b : Byte} (p : List Byte)

/-- Outside PAY the byte presented is the next one of the frame. -/
theorem frame_getElem_sent (hb : txPresented t = some b) (hpay : t.ph ≠ .pay) :
    (frame t.cmd t.addr t.len p (txCk t))[t.ph.sent p.length]? = some b := by
  rw [← hb]
  cases h : t.ph with
  | idle => simp only [txPresented, h, reduceCtorEq] at hb
  | pay => exact absurd h hpay
  | k0 =>
    simp only [txPresented, h]
    exact frame_getElem_trailer t.cmd t.addr t.len p (txCk t) 0
  | k1 =>
    have hsent : TxPhase.k1.sent p.length = 9 + p.length + 1 := by
      simp only [TxPhase.sent]
      omega
    rw [hsent]
    simp only [txPresented, h]
    exact frame_getElem_trailer t.cmd t.addr t.len p (txCk t) 1
  | s0 | s1 | cmd | a0 | a1 | a2 | a3 | l0 | l1 =>
    simp only [txPresented, h]
    rfl

/-- Outside PAY, and before the last byte, advancing counts one byte; from L1 the payload is still to come. -/
theorem sent_txAdvance (hidle : t.ph ≠ .idle) (hpay : t.ph ≠ .pay) (hk1 : t.ph ≠ .k1)
    (hp : t.ph = .l1 → p.length = 0) : (txAdvance t).ph.sent p.length = t.ph.sent p.length + 1 := by
  cases h : t.ph with
  | idle => exact absurd h hidle
  | pay => exact absurd h hpay
  | k1 => exact absurd h hk1
  | l1 =>
    rw [txAdvance_ph_l1 h, hp h]
    split <;> rfl
  | k0 =>
    rw [txAdvance_ph_k0 h]
    simp only [TxPhase.sent]
    omega
  | s0 | s1 | cmd | a0 | a1 | a2 | a3 | l0 =>
    simp only [txAdvance, h]
    rfl

end

/-! ## The beginning of the frame (R60, R131) -/

/-- TXLOG ends with the first bytes of the frame in progress; `p` are the payload bytes among them. -/
structure SentPrefix (t : Tx) (log earlier p : List Byte) : Prop where
  length : p.length = t.idx.toNat
  acc : t.acc = checksum p
  log : log = earlier ++ (frame t.cmd t.addr t.len p (txCk t)).take (t.ph.sent p.length)

theorem State.frameInv_iff (s : State) :
    s.FrameInv ↔ (s.tx.ph ≠ .idle → ∃ earlier p, SentPrefix s.tx s.txlog earlier p) := by
  refine forall_congr' fun _ => exists_congr fun earlier => exists_congr fun p => ?_
  exact ⟨fun ⟨hlen, hacc, hlog⟩ => ⟨hlen, hacc, hlog⟩, fun ⟨hlen, hacc, hlog⟩ => ⟨hlen, hacc, hlog⟩⟩

/-- A frame with the latches of the serializer and the payload `p`. -/
def Tx.frameWith (t : Tx) (p : List Byte) : List Byte :=
  frame t.cmd t.addr t.len p (if t.ckm = .acc then checksum p else t.ckv)

/-- The payload byte that the serializer holds and has not sent. -/
def Tx.pending (t : Tx) : List Byte := if t.pbv = true then [t.pbuf] else []

section
variable {limit : Addr} {t : Tx} {log earlier p : List Byte} {b : Byte}

/-- A frame that starts has sent nothing (R121). -/
theorem sentPrefix_start (cmd : Byte) (a : Addr) (l n : Half) (m : CkMode) (k : Half) (t : Tx) (log : List Byte) :
    SentPrefix (txStart cmd a l n m k t) log log [] :=
  ⟨rfl, rfl, (List.append_nil log).symm⟩

/-- The payload byte waiting in PBUF is not sent yet. -/
theorem SentPrefix.put (h : SentPrefix t log earlier p) (b : Byte) :
    SentPrefix { t with pbuf := b, pbv := true } log earlier p :=
  ⟨h.length, h.acc, h.log⟩

theorem SentPrefix.advance_of_ne_pay (h : SentPrefix t log earlier p) (hinv : TxInv limit t) (hpay : t.ph ≠ .pay)
    (hk1 : t.ph ≠ .k1) (hb : txPresented t = some b) : SentPrefix (txAdvance t) (log ++ [b]) earlier p := by
  have hidle : t.ph ≠ .idle := fun hc => by simp [txPresented, hc] at hb
  have hempty : t.ph = .l1 → p.length = 0 := fun hc => by
    obtain ⟨hidx, -⟩ := hinv.header (by rw [hc]; rfl)
    rw [h.length, hidx]
    rfl
  have hlog : log ++ [b] =
      earlier ++ (frame t.cmd t.addr t.len p (txCk t)).take ((txAdvance t).ph.sent p.length) := by
    rw [sent_txAdvance p hidle hpay hk1 hempty, List.take_add_one, frame_getElem_sent p hb hpay, h.log,
      List.append_assoc]
    rfl
  rw [txAdvance_eq_of_ne_pay hpay]
  exact ⟨h.length, h.acc, hlog⟩

theorem SentPrefix.send_payload (h : SentPrefix t log earlier p) (hinv : TxInv limit t) (hpay : t.ph = .pay) :
    SentPrefix (txSendPayload t) (log ++ [t.pbuf]) earlier (p ++ [t.pbuf]) := by
  have hlt := hinv.pay_idx hpay
  have hlength : (p ++ [t.pbuf]).length = (t.idx + 1#16).toNat := by
    have hlen := h.length
    rw [List.length_append, List.length_singleton]
    bv_omega
  have hsent : (txSendPayload t).ph.sent (p ++ [t.pbuf]).length = 9 + (p ++ [t.pbuf]).length := by
    rw [txSendPayload_ph]
    split <;> rfl
  refine ⟨hlength, ?_, ?_⟩
  · rw [txSendPayload_acc, h.acc, accAdd_checksum]
  · rw [hsent, frame_take_payload, h.log, hpay]
    simp only [TxPhase.sent, frame_take_payload, List.append_assoc, txSendPayload_cmd, txSendPayload_addr,
      txSendPayload_len]

/-- Each byte taken before the last one is the next of the frame; the payload sent and pending is the same. -/
theorem SentPrefix.advance (h : SentPrefix t log earlier p) (hinv : TxInv limit t) (hk1 : t.ph ≠ .k1)
    (hb : txPresented t = some b) :
    ∃ p', SentPrefix (txAdvance t) (log ++ [b]) earlier p' ∧ p' ++ (txAdvance t).pending = p ++ t.pending := by
  by_cases hpay : t.ph = .pay
  · have hpbv : t.pbv = true := by
      by_contra hc
      rw [(txPresented_eq_none t).mpr (.inr ⟨hpay, Bool.eq_false_iff.mpr hc⟩)] at hb
      cases hb
    obtain rfl : t.pbuf = b := Option.some.inj ((txPresented_pay_held hpay hpbv).symm.trans hb)
    rw [txAdvance_pay hpay]
    refine ⟨_, h.send_payload hinv hpay, ?_⟩
    simp only [Tx.pending, txSendPayload_pbv, hpbv, Bool.false_eq_true, if_false, if_true, List.append_nil]
  · obtain ⟨-, -, hpbv⟩ := txAdvance_of_ne_pay t hpay
    obtain ⟨-, -, -, -, -, -, hpbuf⟩ := txAdvance_latches t
    exact ⟨p, h.advance_of_ne_pay hinv hpay hk1 hb, by rw [Tx.pending, Tx.pending, hpbv, hpbuf]⟩

/-- The byte taken in K1 completes the frame. -/
theorem SentPrefix.last_byte (h : SentPrefix t log earlier p) (hinv : TxInv limit t) (hk1 : t.ph = .k1)
    (hb : txPresented t = some b) :
    p.length = t.pcnt.toNat ∧ log ++ [b] = earlier ++ t.frameWith p := by
  have hpay : t.ph ≠ .pay := by simp [hk1]
  have hck : txCk t = if t.ckm = .acc then checksum p else t.ckv := by rw [txCk_eq_ite, h.acc]
  have hsent : t.ph.sent p.length + 1 = (frame t.cmd t.addr t.len p (txCk t)).length := by
    rw [hk1, frame_length]
    simp only [TxPhase.sent]
    omega
  constructor
  · rw [h.length, hinv.trailer_idx (.inr hk1)]
  · have hwhole : (frame t.cmd t.addr t.len p (txCk t)).take (t.ph.sent p.length) ++ [b] =
        frame t.cmd t.addr t.len p (txCk t) := by
      refine Eq.trans ?_ (List.take_of_length_le hsent.ge)
      rw [List.take_add_one, frame_getElem_sent p hb hpay, Option.toList_some]
    rw [Tx.frameWith, ← hck, h.log, List.append_assoc, hwhole]

end

/-! ## Every step keeps it -/

theorem State.frameInv_of_idle {s : State} (h : s.tx.ph = .idle) : s.FrameInv :=
  fun hidle => absurd h hidle

/-- The invariant is about the serializer and TXLOG. -/
theorem State.FrameInv.congr {s t : State} (h : s.FrameInv) (htx : t.tx = s.tx) (hlog : t.txlog = s.txlog) :
    t.FrameInv := by
  rw [State.frameInv_iff, htx, hlog]
  exact s.frameInv_iff.mp h

theorem State.FrameInv.txLineStep {s : State} (h : s.FrameInv) (hinv : s.Inv) : s.txLineStep.FrameInv := by
  cases hb : txPresented s.tx with
  | none => rwa [State.txLineStep_of_silent hb]
  | some b =>
    rw [State.txLineStep_of_presented hb]
    by_cases hk1 : s.tx.ph = .k1
    · exact State.frameInv_of_idle (txAdvance_ph_k1 hk1)
    · have hidle : s.tx.ph ≠ .idle := fun hc => by simp [txPresented, hc] at hb
      obtain ⟨earlier, p, hsent⟩ := s.frameInv_iff.mp h hidle
      obtain ⟨p', hsent', -⟩ := hsent.advance hinv.tx hk1 hb
      exact (State.frameInv_iff _).mpr fun _ => ⟨earlier, p', hsent'⟩

theorem State.FrameInv.exec {i : Instr} {s t : State} (h : s.FrameInv) (hexec : ExecCase i s t) : t.FrameInv := by
  cases hexec with
  | start cmd a l n m k _ _ _ ht =>
    subst ht
    exact (State.frameInv_iff _).mpr fun _ => ⟨s.txlog, [], sentPrefix_start cmd a l n m k s.tx s.txlog⟩
  | keep ht | ckClear _ ht | ckAdd _ _ ht | refuse _ _ _ _ ht | rxReset _ ht | clrStatus _ ht | reserved _ _ ht =>
    exact h.congr (by simp [ht]) (by simp [ht])

/-- Settles O54: the serializer is in IDLE. -/
theorem framePrefixInvariantAtReset : Obligations.FramePrefixInvariantAtReset :=
  ⟨State.frameInv_of_idle rfl, fun _ => State.frameInv_of_idle rfl⟩

/-- Settles O53: only the TX line's step, a payload transfer and a TX op write the serializer or TXLOG. -/
theorem framePrefixInvariantKept : Obligations.FramePrefixInvariantKept := by
  intro s t hinv h hstep
  have hblock : s.block.FrameInv := h
  have hblockInv : s.block.Inv := ⟨hinv.tx, hinv.rx, hinv.evlog⟩
  change t.block.FrameInv
  cases step_cases hstep with
  | keep ht | take _ _ _ _ _ _ _ _ _ _ ht | rxLine _ _ _ ht => rw [ht]; exact hblock.congr (by simp) (by simp)
  | txLine _ _ ht => rw [ht]; exact hblock.txLineStep hblockInv
  | reset _ _ ht => rw [ht]; exact State.frameInv_of_idle rfl
  | put b hph _ ht =>
    obtain ⟨earlier, p, hsent⟩ := s.frameInv_iff.mp h (by simp [hph])
    rw [ht, State.frameInv_iff]
    exact fun _ => ⟨earlier, p, hsent.put b⟩
  | command _ _ _ ht => exact hblock.exec ht

/-- Settles O55: the byte at K1 is the last of the frame whose beginning the invariant gives. -/
theorem lastByteCompletesTheFrame : Obligations.LastByteCompletesTheFrame := by
  intro s hinv h hk1
  obtain ⟨earlier, p, hsent⟩ := s.frameInv_iff.mp h (by simp [hk1])
  obtain ⟨b, hb⟩ := exists_txPresented_eq_some (t := s.tx) (by simp [hk1]) (by simp [hk1])
  obtain ⟨hlength, hlog⟩ := hsent.last_byte hinv.tx hk1 hb
  rw [State.txLineStep_of_presented hb]
  exact ⟨txAdvance_ph_k1 hk1, earlier, p, hlength, hlog⟩

end Sys2Proof.Machine
end

section
/-! Runs of the transmit side (42_transmit.md R131, 70_reset_and_hazards.md R243): what an accepted TX op makes the TX
line take is its frame, in any order of the steps, and 11 + P and P of them carry it out. -/

namespace Sys2Proof.Machine

/-! ## Runs of transmit steps -/

section
variable {s : State} (ms : List TxMove)

theorem txRun_take : txRun (.take :: ms) s = txRun ms s.txLineStep := rfl

theorem txRun_put_ready {b : Byte} (h : s.payloadReady = true) :
    txRun (.put b :: ms) s = ((txRun ms (s.putByte b)).1, b :: (txRun ms (s.putByte b)).2) := by
  rw [txRun, if_pos h]

theorem txRun_put_held {b : Byte} (h : s.payloadReady = false) : txRun (.put b :: ms) s = txRun ms s := by
  rw [txRun, if_neg (Bool.eq_false_iff.mp h)]

/-- In IDLE no transmit step is enabled. -/
theorem txRun_of_idle (h : s.tx.ph = .idle) : txRun ms s = (s, []) := by
  induction ms with
  | nil => rfl
  | cons m ms ih =>
    cases m with
    | take => rw [txRun_take, State.txLineStep_of_silent ((txPresented_eq_none s.tx).mpr (.inl h)), ih]
    | put b =>
      have hready : s.payloadReady = false := by simp [State.payloadReady, h]
      rw [txRun_put_held ms hready, ih]

theorem txRun_append (ns : List TxMove) (s : State) :
    txRun (ms ++ ns) s = ((txRun ns (txRun ms s).1).1, (txRun ms s).2 ++ (txRun ns (txRun ms s).1).2) := by
  induction ms generalizing s with
  | nil => rfl
  | cons m ms ih =>
    cases m with
    | take => exact ih s.txLineStep
    | put b =>
      cases hready : s.payloadReady with
      | false => rw [List.cons_append, txRun_put_held _ hready, txRun_put_held _ hready, ih]
      | true => rw [List.cons_append, txRun_put_ready _ hready, txRun_put_ready _ hready, ih]; rfl

end

/-! ## Every run that ends in IDLE completes the frame -/

/-- A frame is in progress, which began where TXLOG was `base` and for which the payload port took the bytes `took`. -/
structure InFrame (limit : Addr) (base took : List Byte) (s : State) : Prop where
  busy : s.tx.ph ≠ .idle
  inv : TxInv limit s.tx
  sent : ∃ p, SentPrefix s.tx s.txlog base p ∧ p ++ s.tx.pending = took

section
variable {limit : Addr} {base took : List Byte} {s : State}

theorem inFrame_start {cmd : Byte} {a : Addr} (hcmd : cmd = Config.cmdWrite ∨ cmd = Config.cmdRead)
    (ha : a ≤ s.addrLimit) (l n : Half) (m : CkMode) (k : Half) :
    InFrame s.addrLimit s.txlog [] (s.withTx (txStart cmd a l n m k s.tx)) :=
  ⟨TxPhase.noConfusion, txInv_start hcmd ha l n m k s.tx, [], sentPrefix_start cmd a l n m k s.tx s.txlog, rfl⟩

/-- A payload transfer adds its byte. -/
theorem InFrame.put (h : InFrame limit base took s) (hready : s.payloadReady = true) (b : Byte) :
    InFrame limit base (took ++ [b]) (s.putByte b) := by
  obtain ⟨hph, hpbv⟩ := s.payloadReady_iff.mp hready
  obtain ⟨p, hsent, rfl⟩ := h.sent
  refine ⟨h.busy, h.inv.put hph b, p, hsent.put b, ?_⟩
  simp [Tx.pending, hpbv]

/-- Only K1 leads to IDLE (R127, R129). -/
theorem txAdvance_busy {t : Tx} (hidle : t.ph ≠ .idle) (hk1 : t.ph ≠ .k1) : (txAdvance t).ph ≠ .idle := by
  cases h : t.ph with
  | idle => exact absurd h hidle
  | k1 => exact absurd h hk1
  | l1 =>
    rw [txAdvance_ph_l1 h]
    split <;> decide
  | pay =>
    rw [txAdvance_pay h, txSendPayload_ph]
    split <;> decide
  | s0 | s1 | cmd | a0 | a1 | a2 | a3 | l0 | k0 => simp only [txAdvance, h, ne_eq, reduceCtorEq, not_false_eq_true]

/-- A TX line step before the last byte. -/
theorem InFrame.advance (h : InFrame limit base took s) (hk1 : s.tx.ph ≠ .k1) {b : Byte}
    (hb : txPresented s.tx = some b) :
    InFrame limit base took { s with tx := txAdvance s.tx, txlog := s.txlog ++ [b] } := by
  obtain ⟨p, hsent, rfl⟩ := h.sent
  obtain ⟨p', hsent', hpending⟩ := hsent.advance h.inv hk1 hb
  exact ⟨txAdvance_busy h.busy hk1, h.inv.advance, p', hsent', hpending⟩

/-- The last TX line step: the whole frame is in TXLOG. -/
theorem InFrame.last_byte (h : InFrame limit base took s) (hk1 : s.tx.ph = .k1) {b : Byte}
    (hb : txPresented s.tx = some b) :
    s.txlog ++ [b] = base ++ s.tx.frameWith took ∧ took.length = s.tx.pcnt.toNat := by
  have hpbv : s.tx.pbv = false := h.inv.pbv_of_ne_pay (by simp [hk1])
  obtain ⟨p, hsent, rfl⟩ := h.sent
  obtain ⟨hlength, hlog⟩ := hsent.last_byte h.inv hk1 hb
  simp only [Tx.pending, hpbv, Bool.false_eq_true, if_false, List.append_nil]
  exact ⟨hlog, hlength⟩

/-- Advancing keeps the latches of the frame. -/
theorem Tx.frameWith_txAdvance (t : Tx) (p : List Byte) : (txAdvance t).frameWith p = t.frameWith p := by
  obtain ⟨hcmd, haddr, hlen, -, hckm, hckv, -⟩ := txAdvance_latches t
  rw [Tx.frameWith, Tx.frameWith, hcmd, haddr, hlen, hckm, hckv]

/-- A run that brings TXPH back to IDLE leaves exactly the frame in TXLOG, with the payload taken before and in it. -/
theorem InFrame.txRun_completes (h : InFrame limit base took s) (ms : List TxMove)
    (hidle : (txRun ms s).1.tx.ph = .idle) :
    (txRun ms s).1.txlog = base ++ s.tx.frameWith (took ++ (txRun ms s).2) ∧
      (took ++ (txRun ms s).2).length = s.tx.pcnt.toNat := by
  induction ms generalizing s took with
  | nil => exact absurd hidle h.busy
  | cons m ms ih =>
    cases m with
    | put b =>
      cases hready : s.payloadReady with
      | false =>
        rw [txRun_put_held ms hready] at hidle ⊢
        exact ih h hidle
      | true =>
        rw [txRun_put_ready ms hready] at hidle ⊢
        have hrun := ih (h.put hready b) hidle
        rwa [List.append_assoc, List.singleton_append] at hrun
    | take =>
      rw [txRun_take] at hidle ⊢
      cases hb : txPresented s.tx with
      | none =>
        rw [State.txLineStep_of_silent hb] at hidle ⊢
        exact ih h hidle
      | some b =>
        rw [State.txLineStep_of_presented hb] at hidle ⊢
        by_cases hk1 : s.tx.ph = .k1
        · rw [txRun_of_idle ms (txAdvance_ph_k1 hk1), List.append_nil]
          exact h.last_byte hk1 hb
        · obtain ⟨-, -, -, hpcnt, -, -, -⟩ := txAdvance_latches s.tx
          have hrun := ih (h.advance hk1 hb) hidle
          rwa [Tx.frameWith_txAdvance, hpcnt] at hrun

end

/-- What the run after an accepted TX op leaves, for its latched operands. -/
theorem txRun_of_txOp {s s₁ : State} {a : Addr} {cmd : Byte} {l n : Half} {m : CkMode} {k : Half}
    {ms : List TxMove} (hidle : s.tx.ph = .idle) (ha : a ≤ s.addrLimit)
    (hcmd : cmd = Config.cmdWrite ∨ cmd = Config.cmdRead) (hs₁ : s.txOp cmd a l n m k = s₁)
    (hend : (txRun ms s₁).1.tx.ph = .idle) :
    (txRun ms s₁).1.txlog = s.txlog ++
        frame cmd a l (txRun ms s₁).2 (if m = .acc then checksum (txRun ms s₁).2 else k) ∧
      (txRun ms s₁).2.length = n.toNat := by
  rw [State.txOp_of_le_limit hidle ha] at hs₁
  subst hs₁
  exact (inFrame_start hcmd ha l n m k).txRun_completes ms hend

/-- Settles O24: each of the three ops starts its frame with the operands of its own rule, and every run back to IDLE
completes that frame. -/
theorem acceptedTxOpEmitsExactlyItsFrame : Obligations.AcceptedTxOpEmitsExactlyItsFrame := by
  intro s s₁ a l n k c ms hidle ha s₂ p hend
  refine ⟨fun hexec => ?write, fun hexec => ?read, fun hexec => ?build⟩
  case write =>
    have hs₁ : s.txOp Config.cmdWrite a l l .acc 0#16 = s₁ := Host.Outcome.next.inj hexec
    have hrun := txRun_of_txOp hidle ha (.inl rfl) hs₁ hend
    rwa [if_pos rfl] at hrun
  case read =>
    have hs₁ : s.txOp Config.cmdRead a l 0#16 .fix 0#16 = s₁ := Host.Outcome.next.inj hexec
    obtain ⟨hlog, hlength⟩ := txRun_of_txOp hidle ha (.inr rfl) hs₁ hend
    have hp : (txRun ms s₁).2 = [] := List.length_eq_zero_iff.mp hlength
    rw [hp, if_neg (by decide)] at hlog
    exact ⟨hlog, hp⟩
  case build =>
    have hs₁ : s.txOp c.byte a l n .fix k = s₁ := Host.Outcome.next.inj hexec
    have hrun := txRun_of_txOp hidle ha (frameCmd_byte_eq_or c) hs₁ hend
    rwa [if_neg (by decide), frameCmd_byte_eq_ite] at hrun

/-! ## The count of the steps (R243) -/

/-- The state `s` with the serializer's registers as given and `log` appended to TXLOG. -/
def State.sending (s : State) (t : Tx) (log : List Byte) : State := { s with tx := t, txlog := s.txlog ++ log }

section
variable {s : State} {t : Tx} {log : List Byte}

theorem State.sending_txLineStep {b : Byte} (h : txPresented t = some b) :
    (s.sending t log).txLineStep = s.sending (txAdvance t) (log ++ [b]) := by
  have hb : txPresented (s.sending t log).tx = some b := h
  rw [State.txLineStep_of_presented hb, State.sending, State.sending, List.append_assoc]

/-- A TX line step where the phase, and with it the byte presented and the successor, is known. -/
theorem txRun_take_sending {ms : List TxMove} {b : Byte} {u : Tx} (hb : txPresented t = some b)
    (hu : txAdvance t = u) : txRun (.take :: ms) (s.sending t log) = txRun ms (s.sending u (log ++ [b])) := by
  rw [txRun_take, State.sending_txLineStep hb, hu]

/-- Nine TX line steps take the header. -/
theorem txRun_header (hph : t.ph = .s0) :
    txRun (List.replicate Config.hdrBytes .take) (s.sending t log) =
      (s.sending { t with ph := if t.pcnt = 0#16 then .k0 else .pay } (log ++ frameHeader t.cmd t.addr t.len), []) := by
  obtain ⟨ph⟩ := t
  cases hph
  simp only [Config.hdrBytes, List.replicate]
  iterate 9 rw [txRun_take_sending rfl rfl]
  simp only [List.append_assoc]
  rfl

/-- Two TX line steps take the checksum field. -/
theorem txRun_trailer (hph : t.ph = .k0) :
    txRun (List.replicate Config.trlBytes .take) (s.sending t log) =
      (s.sending { t with ph := .idle } (log ++ le16 (txCk t)), []) := by
  obtain ⟨ph⟩ := t
  cases hph
  simp only [Config.trlBytes, List.replicate]
  iterate 2 rw [txRun_take_sending rfl rfl]
  simp only [List.append_assoc]
  rfl

/-- A payload transfer and a TX line step send one byte. -/
theorem txRun_put_take (b : Byte) (ms : List TxMove) (hpay : t.ph = .pay) (hpbv : t.pbv = false) :
    txRun (.put b :: .take :: ms) (s.sending t log) =
      ((txRun ms (s.sending (txSendPayload { t with pbuf := b, pbv := true }) (log ++ [b]))).1,
        b :: (txRun ms (s.sending (txSendPayload { t with pbuf := b, pbv := true }) (log ++ [b]))).2) := by
  have hready : (s.sending t log).payloadReady = true := (State.payloadReady_iff _).mpr ⟨hpay, hpbv⟩
  have hput : (s.sending t log).putByte b = s.sending { t with pbuf := b, pbv := true } log := rfl
  rw [txRun_put_ready _ hready, hput, txRun_take_sending (t := { t with pbuf := b, pbv := true })
    (txPresented_pay_held hpay rfl) (txAdvance_pay hpay)]

/-- A payload transfer and a TX line step a byte take the payload that is still due. -/
theorem txRun_payload (p : List Byte) (hph : t.ph = if p = [] then .k0 else .pay) (hpbv : t.pbv = false)
    (hdue : t.idx.toNat + p.length = t.pcnt.toNat) :
    ∃ u, txRun (p.map fun b => [TxMove.put b, TxMove.take]).flatten (s.sending t log) =
      (s.sending u (log ++ p), p) ∧ u.ph = .k0 := by
  induction p generalizing t log with
  | nil => exact ⟨t, by rw [List.append_nil]; rfl, hph⟩
  | cons b p ih =>
    have hidx : (t.idx + 1#16).toNat = t.idx.toNat + 1 := by
      rw [List.length_cons] at hdue
      bv_omega
    have hlast : t.idx + 1#16 = t.pcnt ↔ p = [] := by
      rw [← BitVec.toNat_inj, hidx, ← hdue, List.length_cons, ← List.length_eq_zero_iff]
      omega
    obtain ⟨u, hrun, hu⟩ := ih (t := txSendPayload { t with pbuf := b, pbv := true }) (log := log ++ [b])
      (by simp only [txSendPayload_ph, hlast]) rfl
      (by rw [txSendPayload_idx, txSendPayload_pcnt, hidx, ← hdue, List.length_cons]; omega)
    refine ⟨u, ?_, hu⟩
    rw [List.map_cons, List.flatten_cons, List.cons_append, List.cons_append, List.nil_append,
      txRun_put_take b _ hph hpbv, hrun, List.append_assoc, List.singleton_append]

/-- The steps of `frameMoves` carry out a frame that starts. -/
theorem txRun_frameMoves {p : List Byte} (hph : t.ph = .s0) (hpbv : t.pbv = false) (hidx : t.idx = 0#16)
    (hp : p.length = t.pcnt.toNat) :
    ∃ u rest, txRun (frameMoves p) (s.sending t []) = (s.sending u rest, p) ∧ u.ph = .idle ∧
      rest.length = 11 + p.length := by
  have hzero : t.pcnt = 0#16 ↔ p = [] := by
    rw [← BitVec.toNat_inj, ← hp, ← List.length_eq_zero_iff]
    rfl
  have hheader := txRun_header (s := s) (log := []) hph
  obtain ⟨u, hpayload, hu⟩ := txRun_payload p (s := s) (log := frameHeader t.cmd t.addr t.len)
    (t := { t with ph := if t.pcnt = 0#16 then .k0 else .pay }) (by simp only [hzero]) hpbv
    (by rw [hidx, hp]; exact Nat.zero_add _)
  have htrailer := txRun_trailer (s := s) (log := frameHeader t.cmd t.addr t.len ++ p) hu
  refine ⟨{ u with ph := .idle }, frameHeader t.cmd t.addr t.len ++ p ++ le16 (txCk u), ?_, rfl, ?_⟩
  · have hparts : txRun (frameMoves p) (s.sending t []) = _ := txRun_append ..
    rw [hparts, txRun_append, hheader, List.nil_append, hpayload, htrailer, List.nil_append, List.append_nil]
  · simp only [List.length_append, frameHeader_length, le16_length]
    omega

end

/-- Settles O25: each of the three ops starts a frame with its payload count, which `frameMoves` carries out. -/
theorem frameCompletesInItsStepCount : Obligations.FrameCompletesInItsStepCount := by
  intro s s₁ a l n k c i p hidle ha hexec hi
  have complete {cmd : Byte} {n' : Half} {m : CkMode} {k' : Half} (hs₁ : s.txOp cmd a l n' m k' = s₁)
      (hp : p.length = n'.toNat) : ∃ tx log, txRun (frameMoves p) s₁ =
        ({ s with tx := tx, txlog := s.txlog ++ log }, p) ∧ tx.ph = .idle ∧ log.length = 11 + p.length := by
    have hstart : s.withTx (txStart cmd a l n' m k' s.tx) = s.sending (txStart cmd a l n' m k' s.tx) [] := by
      rw [State.sending, List.append_nil, State.withTx]
    rw [← hs₁, State.txOp_of_le_limit hidle ha, hstart]
    exact txRun_frameMoves rfl rfl rfl hp
  rcases hi with ⟨rfl, hp⟩ | ⟨rfl, rfl⟩ | ⟨rfl, hp⟩
  · exact complete (cmd := Config.cmdWrite) (n' := l) (m := .acc) (k' := 0#16) (Host.Outcome.next.inj hexec) hp
  · exact complete (cmd := Config.cmdRead) (n' := 0#16) (m := .fix) (k' := 0#16) (Host.Outcome.next.inj hexec) rfl
  · exact complete (cmd := c.byte) (n' := n) (m := .fix) (k' := k) (Host.Outcome.next.inj hexec) hp

end Sys2Proof.Machine
end

section
/-! Runs of delivered bytes (43_receive.md R152 to R166): the hunt for the sync marker, the payload, and the round trip
of a frame. -/

namespace Sys2Proof.Machine

/-! ## The hunt (R152, R153, R160) -/

/-- The state with the deframer in another phase. -/
def State.withRxPh (s : State) (ph : RxPhase) : State := { s with rx := { s.rx with ph := ph } }

theorem State.withRxPh_self {s : State} {ph : RxPhase} (h : s.rx.ph = ph) : s.withRxPh ph = s := by
  subst h
  rfl

/-- From HUNT0, bytes without the sync marker leave the deframer hunting. -/
theorem deliverAll_of_no_marker (bs : List Byte) {s : State} (h : s.rx.ph = .hunt0)
    (hbs : ¬ [0xAA#8, 0x55#8] <:+: bs) :
    deliverAll bs s = s.withRxPh (if bs.getLast? = some 0xAA#8 then .hunt1 else .hunt0) := by
  induction bs using List.reverseRecOn with
  | nil => exact (State.withRxPh_self h).symm
  | append_singleton bs b ih =>
    rw [deliverAll_append, ih fun hc => hbs (hc.trans (List.infix_append' [] bs [b])), List.getLast?_concat]
    simp only [Option.some.injEq]
    by_cases hlast : bs.getLast? = some 0xAA#8
    · have hb : b ≠ 0x55#8 := by
        rintro rfl
        obtain ⟨cs, rfl⟩ := List.getLast?_eq_some_iff.mp hlast
        exact hbs ⟨cs, [], by simp⟩
      rw [if_pos hlast]
      refine (State.rxLineStep_hunt1 (s := s.withRxPh .hunt1) b rfl).trans ?_
      rw [if_neg hb]
      rfl
    · rw [if_neg hlast]
      exact State.rxLineStep_hunt0 (s := s.withRxPh .hunt0) b rfl

/-- Settles O33: the two hunting phases byte by byte, and lists without the marker from the right. -/
theorem huntEndsExactlyAtTheMarker : Obligations.HuntEndsExactlyAtTheMarker := by
  refine ⟨fun b s h => ?leaves, fun bs s h hbs => deliverAll_of_no_marker bs h hbs, fun bs s h hbs => ?reaches,
    fun b s h => ?frameEnd⟩
  case leaves =>
    cases hph : s.rx.ph with
    | hunt0 =>
      rw [State.rxLineStep_hunt0 b hph]
      by_cases hb : b = 0xAA#8 <;> simp [hb, RxPhase.hunts]
    | hunt1 =>
      rw [State.rxLineStep_hunt1 b hph]
      by_cases hb : b = 0x55#8
      · simp [hb, RxPhase.hunts]
      · by_cases hb' : b = 0xAA#8 <;> simp [hb, hb', RxPhase.hunts]
    | cmd | a0 | a1 | a2 | a3 | l0 | l1 | pay | k0 | k1 =>
      rw [hph] at h
      cases h
  case reaches =>
    have hsplit : bs ++ [0xAA#8, 0x55#8] = (bs ++ [0xAA#8]) ++ [0x55#8] := by simp
    rw [hsplit, deliverAll_append, deliverAll_of_no_marker _ h hbs, List.getLast?_concat, if_pos rfl]
    exact State.rxLineStep_hunt1 (s := s.withRxPh .hunt1) 0x55#8 rfl
  case frameEnd => rw [State.rxLineStep_k1 b h rfl]

/-- An ASCII byte is not SYNC0, so it leads from the hunt to HUNT0, but where it completes a marker. -/
theorem State.rxLineStep_ascii {s : State} {b : Byte} (hb : b.toNat < 0x80)
    (h : s.rx.ph = .hunt0 ∨ (s.rx.ph = .hunt1 ∧ b ≠ 0x55#8)) : s.rxLineStep b = s.withRxPh .hunt0 := by
  have hsync : b ≠ 0xAA#8 := by
    rintro rfl
    exact absurd hb (by decide)
  rcases h with h | ⟨h, hne⟩
  · rw [State.rxLineStep_hunt0 b h, if_neg hsync]
    rfl
  · rw [State.rxLineStep_hunt1 b h, if_neg hne, if_neg hsync]
    rfl

/-- ASCII text keeps the deframer in HUNT0. -/
theorem deliverAll_ascii (bs : List Byte) {s : State} (hbs : ∀ b ∈ bs, b.toNat < 0x80) (h : s.rx.ph = .hunt0) :
    deliverAll bs s = s.withRxPh .hunt0 := by
  induction bs with
  | nil => exact (State.withRxPh_self h).symm
  | cons b bs ih =>
    have hstep : s.rxLineStep b = s :=
      (State.rxLineStep_ascii (hbs b List.mem_cons_self) (.inl h)).trans (State.withRxPh_self h)
    rw [deliverAll_cons, hstep]
    exact ih fun c hc => hbs c (List.mem_cons_of_mem b hc)

/-- Settles O35: the first byte leads to HUNT0, where the others leave it; 0x55 in HUNT1 completes a marker. -/
theorem asciiTextNeverEndsTheHunt : Obligations.AsciiTextNeverEndsTheHunt := by
  refine ⟨fun bs s hne hbs h => ?text, fun s h => State.rxLineStep_hunt1 0x55#8 h⟩
  case text =>
    cases bs with
    | nil => exact absurd rfl hne
    | cons b bs =>
      have hfirst : s.rx.ph = .hunt0 ∨ (s.rx.ph = .hunt1 ∧ b ≠ 0x55#8) :=
        h.imp_right fun ⟨hph, hb⟩ => ⟨hph, fun hc => hb (congrArg some hc)⟩
      rw [deliverAll_cons, State.rxLineStep_ascii (hbs b List.mem_cons_self) hfirst]
      exact deliverAll_ascii bs (fun c hc => hbs c (List.mem_cons_of_mem b hc)) rfl

/-! ## The payload (R157, R162) -/

/-- The phase in which `n` payload bytes are still due. -/
def rxDuePhase (n : Nat) : RxPhase := if n = 0 then .k0 else .pay

/-- The PAY events of the bytes `p`, the first of them with the index `i`. -/
def payEvents (p : List Byte) (i : Nat) : List Event := (p.zipIdx i).map fun x => .pay x.1 (BitVec.ofNat 16 x.2)

theorem payEvents_cons (b : Byte) (p : List Byte) (i : Nat) :
    payEvents (b :: p) i = .pay b (BitVec.ofNat 16 i) :: payEvents p (i + 1) := rfl

/-- Payload bytes, whatever they are, are summed, counted and posted, as long as they are due. -/
theorem deliverAll_payload (p : List Byte) {s : State} {n : Nat} (hph : s.rx.ph = rxDuePhase (p.length + n))
    (hdue : s.rx.idx.toNat + (p.length + n) = s.rx.pcnt.toNat) :
    deliverAll p s = { s with
      rx := { s.rx with
        acc := p.foldl accAdd s.rx.acc
        idx := s.rx.idx + BitVec.ofNat 16 p.length
        ph := rxDuePhase n }
      evlog := s.evlog ++ (payEvents p s.rx.idx.toNat).map eventWord } := by
  induction p generalizing s with
  | nil =>
    have hn : s.rx.ph = rxDuePhase n := by rwa [List.length_nil, Nat.zero_add] at hph
    have hidx : s.rx.idx + BitVec.ofNat 16 0 = s.rx.idx := BitVec.add_zero _
    rw [← hn, List.foldl_nil, List.length_nil, hidx, payEvents, List.zipIdx_nil, List.map_nil, List.map_nil,
      List.append_nil]
    rfl
  | cons b p ih =>
    rw [List.length_cons] at hph hdue
    have hpay : s.rx.ph = .pay := hph.trans (if_neg (by omega))
    have hidx : (s.rx.idx + 1#16).toNat = s.rx.idx.toNat + 1 := by bv_omega
    have hnext : (if s.rx.idx + 1#16 = s.rx.pcnt then RxPhase.k0 else .pay) = rxDuePhase (p.length + n) := by
      have hlast : s.rx.idx + 1#16 = s.rx.pcnt ↔ p.length + n = 0 := by
        rw [← BitVec.toNat_inj, hidx, ← hdue]
        omega
      simp only [rxDuePhase, hlast]
    have hcount : s.rx.idx + 1#16 + BitVec.ofNat 16 p.length = s.rx.idx + BitVec.ofNat 16 (p.length + 1) := by
      rw [BitVec.add_assoc, Nat.add_comm, BitVec.ofNat_add]
    rw [deliverAll_cons, State.rxLineStep_pay b hpay, hnext]
    have hdue' : (s.rx.idx + 1#16).toNat + (p.length + n) = s.rx.pcnt.toNat := by omega
    refine (ih rfl hdue').trans ?_
    rw [hidx, hcount, List.foldl_cons, List.length_cons, payEvents_cons, List.map_cons, BitVec.ofNat_toNat,
      BitVec.setWidth_eq, List.append_assoc, List.singleton_append]

/-- After the payload two bytes end the frame (R158, R159). -/
theorem deliverAll_trailer_ph {s : State} (h : s.rx.ph = .k0) (bs : List Byte) (hbs : bs.length ≤ 2) :
    (deliverAll bs s).rx.ph = if bs.length = 0 then .k0 else if bs.length = 1 then .k1 else .hunt0 := by
  match bs with
  | [] => exact h
  | [b] => rw [deliverAll_cons, State.rxLineStep_k0 b h]; rfl
  | [b, c] =>
    rw [deliverAll_cons, State.rxLineStep_k0 b h, deliverAll_cons, State.rxLineStep_k1 c rfl rfl]
    rfl
  | _ :: _ :: _ :: _ => simp at hbs

/-- From PAY the phase is counted: the payload due, and then the trailer. -/
theorem deliverAll_pay_ph {s : State} (bs : List Byte) {due : Nat} (hph : s.rx.ph = .pay)
    (hdue : s.rx.idx.toNat + due = s.rx.pcnt.toNat) (hpos : 0 < due) (hbs : bs.length ≤ due + 2) :
    (deliverAll bs s).rx.ph =
      if bs.length < due then .pay
      else if bs.length = due then .k0 else if bs.length = due + 1 then .k1 else .hunt0 := by
  by_cases hle : bs.length ≤ due
  · obtain ⟨n, rfl⟩ := Nat.exists_eq_add_of_le hle
    have hphase : s.rx.ph = rxDuePhase (bs.length + n) := hph.trans (if_neg (by omega)).symm
    rw [deliverAll_payload bs hphase hdue, rxDuePhase]
    by_cases hn : n = 0 <;> simp [hn]
  · have htake : (bs.take due).length = due := List.length_take_of_le (by omega)
    have hphase : s.rx.ph = rxDuePhase ((bs.take due).length + 0) := hph.trans (if_neg (by omega)).symm
    have hpayload := deliverAll_payload (bs.take due) hphase (by omega)
    have hk0 : (deliverAll (bs.take due) s).rx.ph = .k0 := by rw [hpayload]; rfl
    have hdrop : (bs.drop due).length = bs.length - due := List.length_drop
    rw [← List.take_append_drop due bs, deliverAll_append, deliverAll_trailer_ph hk0 _ (by omega), hdrop,
      List.take_append_drop]
    have h1 : ¬ bs.length - due = 0 := by omega
    have h2 : bs.length - due = 1 ↔ bs.length = due + 1 := by omega
    have h3 : ¬ bs.length < due := by omega
    have h4 : ¬ bs.length = due := by omega
    simp only [h1, h2, h3, h4, if_false]

/-- A delivered byte inside a frame leads to the hunt in K1 only. -/
theorem rxReceive_ph_of_frame {r : Rx} (b : Byte) (h : r.ph.inHeader = true ∨ r.ph.pastHeader = true)
    (hk1 : r.ph ≠ .k1) : (rxReceive b r).rx.ph.hunts = false := by
  cases hph : r.ph with
  | hunt0 | hunt1 | cmd => simp [hph, RxPhase.inHeader, RxPhase.pastHeader] at h
  | k1 => exact absurd hph hk1
  | a0 => rw [rxReceive_a0 b hph]; rfl
  | a1 => rw [rxReceive_a1 b hph]; rfl
  | a2 => rw [rxReceive_a2 b hph]; rfl
  | a3 => rw [rxReceive_a3 b hph]; rfl
  | l0 => rw [rxReceive_l0 b hph]; rfl
  | k0 => rw [rxReceive_k0 b hph]; rfl
  | l1 => rw [rxReceive_l1 b hph]; rcases rxHeaderEnd_ph b r with hq | hq <;> rw [hq] <;> rfl
  | pay => rw [rxReceive_pay b hph]; rcases rxPayload_ph b r with hq | hq <;> rw [hq] <;> rfl

/-- Settles O34: the count of the bytes of a payload and its trailer; and of the cases of a step, those that write
RXPH. -/
theorem frameBytesAreNeverAMarker : Obligations.FrameBytesAreNeverAMarker := by
  refine ⟨fun bs s hph hlt hbs => ?count, fun s t hstep hframe hhunts => ?steps⟩
  case count => exact deliverAll_pay_ph bs hph (by bv_omega) (by bv_omega) hbs
  case steps =>
    have hin : s.rx.ph.hunts = false := by
      cases hph : s.rx.ph <;> simp_all [RxPhase.inHeader, RxPhase.pastHeader, RxPhase.hunts]
    have same (h : t.rx = s.rx) : False := by
      rw [h, hin] at hhunts
      cases hhunts
    cases step_cases hstep with
    | keep ht | txLine _ _ ht | put _ _ _ ht | take _ _ _ _ _ _ _ _ _ _ ht =>
      exact (same (by simpa using congrArg State.rx ht)).elim
    | reset rest hs => exact .inr (.inl ⟨rest, hs⟩)
    | rxLine b rest hs ht =>
      have hrx : t.rx = (rxReceive b s.rx).rx := by simpa using congrArg State.rx ht
      refine .inl ⟨?_, b, rest, hs⟩
      by_contra hk1
      rw [hrx, rxReceive_ph_of_frame b hframe hk1] at hhunts
      cases hhunts
    | command i u hmove ht =>
      cases ht with
      | rxReset hi => exact .inr (.inr ⟨u, hi ▸ hmove⟩)
      | keep ht | ckClear _ ht | ckAdd _ _ ht | refuse _ _ _ _ ht | start _ _ _ _ _ _ _ _ _ ht | clrStatus _ ht
      | reserved _ _ ht =>
        exact (same (by simpa using congrArg State.rx ht)).elim

/-! ## The round trip of a frame (R164) -/

/-- A whole frame delivered to a hunting deframer: header, payload, checksum field. -/
theorem deliverAll_frame {s : State} {c : Byte} (a : Addr) {l : Half} (k : Half) {p : List Byte}
    (hp : (c = 0x57#8 ∧ p.length = l.toNat) ∨ (c = 0x52#8 ∧ p = [])) (hhunt : s.rx.ph = .hunt0 ∨ s.rx.ph = .hunt1) :
    ∃ rx, rx.ph = .hunt0 ∧
      deliverAll (frame c a l p k) s = { s with
        rx := rx
        evlog := s.evlog ++ (frameEvents c a l p k).map eventWord
        err := if k = checksum p then s.err else { s.err with eRxck := true } } := by
  have hc : c = 0x57#8 ∨ c = 0x52#8 := hp.imp And.left And.left
  have hcount : p.length = (rxPayloadCount c l).toNat := by
    rcases hp with ⟨rfl, hp⟩ | ⟨rfl, rfl⟩
    · exact hp
    · rfl
  have hphase : (if rxPayloadCount c l = 0#16 then RxPhase.k0 else .pay) = rxDuePhase (p.length + 0) := by
    rw [Nat.add_zero, rxDuePhase, hcount]
    simp only [← BitVec.toNat_inj]
    rfl
  rw [frame_eq_header_payload_trailer, deliverAll_append, deliverAll_append, deliverAll_frameHeader a l hhunt hc,
    deliverAll_payload p (n := 0) hphase (by rw [← hcount]; exact Nat.zero_add _), deliverAll_le16_checksum k rfl]
  refine ⟨⟨.hunt0, c, a, l, rxPayloadCount c l, 0#16 + BitVec.ofNat 16 p.length, checksum p, k.extractLsb' 0 8⟩, rfl,
    ?_⟩
  simp only [foldl_accAdd_zero, frameEvents, List.map_append, List.append_assoc]
  rfl

/-- What the run after an accepted TX_WRITE or TX_READ sends is a whole frame, with the checksum of its payload. -/
theorem txRun_sends_whole_frame {s s₁ : State} {a : Addr} {l : Half} {i : Instr} {ms : List TxMove}
    (hi : i = .txWrite a l ∨ i = .txRead a l) (hidle : s.tx.ph = .idle) (ha : a ≤ s.addrLimit)
    (hexec : exec i s = .next s₁) (hend : (txRun ms s₁).1.tx.ph = .idle) {c : Byte}
    (hc : c = if i = .txWrite a l then 0x57#8 else 0x52#8) :
    ((c = 0x57#8 ∧ (txRun ms s₁).2.length = l.toNat) ∨ (c = 0x52#8 ∧ (txRun ms s₁).2 = [])) ∧
      (txRun ms s₁).1.txlog = s.txlog ++ frame c a l (txRun ms s₁).2 (checksum (txRun ms s₁).2) := by
  obtain ⟨hwrite, hread, -⟩ := acceptedTxOpEmitsExactlyItsFrame s s₁ a l 0#16 0#16 .write ms hidle ha hend
  rcases hi with rfl | rfl
  · obtain ⟨hlog, hlength⟩ := hwrite hexec
    rw [if_pos rfl] at hc
    subst hc
    exact ⟨.inl ⟨rfl, hlength⟩, hlog⟩
  · obtain ⟨hlog, hempty⟩ := hread hexec
    rw [if_neg Instr.noConfusion] at hc
    subst hc
    exact ⟨.inr ⟨rfl, hempty⟩, by rw [hempty]; exact hlog⟩

/-- Settles O32: the frame received part by part; and the frame sent is such a frame, whose checksum field is the
checksum of its payload. -/
theorem frameRoundTrip : Obligations.FrameRoundTrip := by
  refine ⟨fun s c a l k p hp hhunt => deliverAll_frame a k hp hhunt,
    fun s s₁ r a l i ms hi hidle ha hexec hend hhunt => ?sent⟩
  case sent =>
    obtain ⟨hwhole, hlog⟩ := txRun_sends_whole_frame hi hidle ha hexec hend rfl
    obtain ⟨rx, hph, hrun⟩ := deliverAll_frame (s := r) a (checksum (txRun ms s₁).2) hwhole hhunt
    refine ⟨_, rx, hlog, hph, hrun.trans ?_⟩
    rw [if_pos rfl, frameEvents, decide_eq_true rfl]

end Sys2Proof.Machine
end
